-- ==== Sys2Proof/Word.lean ====
section
/-!
DEFINITION. The bit-vector types of the block's ports. Bits are numbered from 0, bit i has weight 2^i (00_scope.md R9, 20_memory.md R41); every value is unsigned (R10).
-/

namespace Sys2Proof

/-- A value on the 64-bit ports `opnd` and `res` (00_scope.md R8, `OPND_W` = `RES_W` = 64). -/
abbrev Word := BitVec 64

/-- A select word on the 3-bit port `ctl` (00_scope.md R8, `CTL_W` = 3). -/
abbrev Select := BitVec 3

/-- A byte that carries a select word where the host's interface wants bytes (log entry 5). The block itself has no bytes (20_memory.md R41). -/
abbrev Byte := BitVec 8

end Sys2Proof
end

