-- ==== Sys2Proof/Config.lean ====
section
/-!
DEFINITION. What an implementation of the block fixes and the spec leaves open (00_scope.md R8, 93_implementation_defined.md U5).
The internal structure (U6) is no parameter here: no observation depends on it (50_laws.md R130).
-/

namespace Sys2Proof

/-- `T_PD` less one unit of time. The spec leaves `T_PD` OPEN and no rule depends on its value (00_scope.md R8, 70_reset_and_hazards.md R163, decision D8), so this has no body and nothing can evaluate it. -/
opaque Config.tPDLessOne : Nat

/-- `T_PD`, the worst-case propagation delay from a stable input to a stable result (00_scope.md R8). The unit of time is unspecified, and taken small enough that `T_PD` is at least one unit (log entry 3). -/
def Config.tPD : Nat := Config.tPDLessOne + 1

end Sys2Proof
end

