-- ==== Sys2Proof/Syntax.lean ====
section
/-!
DEFINITION. The six operations of the block (00_scope.md R2, 30_encoding.md R67 and R72). An operation has no operand field: its operand is on the port `opnd` (R60).
-/

namespace Sys2Proof

/-- The functions that the field `opsel` selects (30_encoding.md R62). -/
inductive Func where
  /-- `count_leading_zeros`, `opsel` = 00 -/
  | clz
  /-- `count_trailing_zeros`, `opsel` = 01 -/
  | ctz
  /-- `reverse_bits`, `opsel` = 10 -/
  | rbit
deriving DecidableEq, Repr

/-- The operand widths that the field `wsel` selects (00_scope.md R7, 30_encoding.md R63). -/
inductive Width where
  /-- N = 32, `wsel` = 0 -/
  | w32
  /-- N = 64, `wsel` = 1 -/
  | w64
deriving DecidableEq, Repr

/-- The operand width N in bits (00_scope.md R7). -/
def Width.bits : Width → Nat
  | .w32 => 32
  | .w64 => 64

/-- The six operations, one constructor per row of the opcode table (00_scope.md R2). -/
inductive Instr where
  /-- CLZ32, `ctl` = 000 (40_clz.md R81) -/
  | clz32
  /-- CLZ64, `ctl` = 001 (40_clz.md R82) -/
  | clz64
  /-- CTZ32, `ctl` = 010 (41_ctz.md R96) -/
  | ctz32
  /-- CTZ64, `ctl` = 011 (41_ctz.md R97) -/
  | ctz64
  /-- RBIT32, `ctl` = 100 (42_rbit.md R111) -/
  | rbit32
  /-- RBIT64, `ctl` = 101 (42_rbit.md R112) -/
  | rbit64
deriving DecidableEq, Repr

namespace Instr

/-- The function an operation computes (30_encoding.md R62, R67). -/
def func : Instr → Func
  | .clz32 => .clz
  | .clz64 => .clz
  | .ctz32 => .ctz
  | .ctz64 => .ctz
  | .rbit32 => .rbit
  | .rbit64 => .rbit

/-- The operand width of an operation (30_encoding.md R63, R67). -/
def width : Instr → Width
  | .clz32 => .w32
  | .clz64 => .w64
  | .ctz32 => .w32
  | .ctz64 => .w64
  | .rbit32 => .w32
  | .rbit64 => .w64

end Instr

end Sys2Proof
end

