-- ==== Sys2Proof/WellFormed.lean ====
section
/-!
DEFINITION. Well-formedness. An operation has no field, so every `Instr` is well formed (30_encoding.md R71). What can be ill formed is a byte offered as a select word, and it is checked in two ways.
-/

namespace Sys2Proof

/-- A byte holds a 3-bit select word if its bits 7 to 3 are 0 (30_encoding.md R70: `ctl` is always exactly 3 bits; the byte is log entry 5). -/
def holdsSelect (b : Byte) : Bool := b.extractLsb' 3 5 == 0#5

/-- A select word is not reserved if `opsel` = `ctl[2:1]` is not 11 (30_encoding.md R68). -/
def notReserved (c : Select) : Bool := c.extractLsb' 1 2 != 0b11#2

/-- A byte is a well-formed select word: both checks. -/
def byteWf (b : Byte) : Bool := holdsSelect b && notReserved (b.extractLsb' 0 3)

/-- Every operation is well formed: it has no field (30_encoding.md R61, R71). -/
def Instr.wf : Instr → Bool
  | .clz32 => true
  | .clz64 => true
  | .ctz32 => true
  | .ctz64 => true
  | .rbit32 => true
  | .rbit64 => true

end Sys2Proof
end

