-- ==== Sys2Proof/Decode.lean ====
section
/-!
DEFINITION. The format `CTL3`: decoding a select word, and the encoder (30_encoding.md R60 to R73).
-/

namespace Sys2Proof

/-- Why bytes are no select word of the block. -/
inductive DecodeError where
  /-- raised by `decodeBytes` on no byte at all; safe -/
  | noByte
  /-- raised by `decodeBytes` on a byte with a bit set above bit 2, which no 3-bit select word has (R70); safe -/
  | notThreeBits
  /-- raised by `decodeSelect` on `opsel` = 11 (R68); safe -/
  | reservedOpsel
deriving DecidableEq, Repr

/-- The field `opsel` = `ctl[2:1]` (R61). -/
def opselOf (c : Select) : BitVec 2 := c.extractLsb' 1 2

/-- The field `wsel` = `ctl[0]` (R61). -/
def wselOf (c : Select) : BitVec 1 := c.extractLsb' 0 1

/-- The function a value of `opsel` selects; 11 is reserved (R62). -/
def funcOf (o : BitVec 2) : Option Func :=
  if o = 0b00#2 then some .clz
  else if o = 0b01#2 then some .ctz
  else if o = 0b10#2 then some .rbit
  else none

/-- The width a value of `wsel` selects (R63). -/
def widthOf (w : BitVec 1) : Width := if w = 1#1 then .w64 else .w32

/-- The operation of a function and a width: the rows of the opcode map (R67). -/
def instrOf : Func → Width → Instr
  | .clz, .w32 => .clz32
  | .clz, .w64 => .clz64
  | .ctz, .w32 => .ctz32
  | .ctz, .w64 => .ctz64
  | .rbit, .w32 => .rbit32
  | .rbit, .w64 => .rbit64

/-- Decode a select word: total on its 8 values, the two reserved codes rejected by name (R67, R68, R71). -/
def decodeSelect (c : Select) : Except DecodeError Instr :=
  match funcOf (opselOf c) with
  | some f => .ok (instrOf f (widthOf (wselOf c)))
  | none => .error .reservedOpsel

/-- Decode a select word carried in the low bits of a byte, and return the bytes after it (log entry 5). -/
def decodeBytes : List Byte → Except DecodeError (Instr × List Byte)
  | [] => .error .noByte
  | b :: rest =>
    if holdsSelect b then
      match decodeSelect (b.extractLsb' 0 3) with
      | .ok i => .ok (i, rest)
      | .error e => .error e
    else .error .notThreeBits

/-- The value of `opsel` that selects a function (R62). -/
def opselCode : Func → BitVec 2
  | .clz => 0b00#2
  | .ctz => 0b01#2
  | .rbit => 0b10#2

/-- The value of `wsel` that selects a width (R63). -/
def wselCode : Width → BitVec 1
  | .w32 => 0#1
  | .w64 => 1#1

/-- The select word of an operation: `opsel` in `ctl[2:1]`, `wsel` in `ctl[0]` (R61). -/
def encode (i : Instr) : Select := opselCode i.func ++ wselCode i.width

/-- The select word of an operation in one byte, bits 7 to 3 zero (log entry 5). -/
def encodeBytes (i : Instr) : List Byte := [(encode i).setWidth 8]

/-- The operation the decoder reads from a word `w` numbered as the opcode table numbers its bits; a word that needs more than 3 bits is no select word (R70). -/
def decodeTableWord (_nbits w : Nat) : Option Instr :=
  if w < 8 then
    match decodeBytes [BitVec.ofNat 8 w] with
    | .ok (i, _) => some i
    | .error _ => none
  else none

end Sys2Proof
end

