-- ==== Sys2Proof/Machine/State.lean ====
section
/-!
DEFINITION. What the model's state holds. The block itself holds no state (10_state.md R20, R27): the fields are the levels on its ports, the conditions of wires and supply that the rules name, and the one observation. INVENTORY.md lists each with its rule and reset value.
-/

namespace Sys2Proof.Machine

/-- The levels on an input port of `w` wires. Bit i of `driven` says that wire i is at a 0 or a 1, and bit i of `value` is then that level.
A wire whose `driven` bit is 0 is undriven, unknown or metastable (70_reset_and_hazards.md R164): its bit of `value` means nothing, and no outcome of a step or of a run of the driver depends on it (log entries 10 and 13). -/
structure InputPort (w : Nat) where
  /-- the level of each driven wire -/
  value : BitVec w
  /-- which wires are driven to 0 or 1 -/
  driven : BitVec w
deriving DecidableEq, Repr

/-- How long the inputs have been stable, as far as R163 asks: at least `T_PD`, or for a time that has not yet been seen to reach it. -/
inductive Stability where
  /-- stable for `heldFor` units of time since the last change of an input, not yet known to be `T_PD` -/
  | pending (heldFor : Nat)
  /-- stable for at least `T_PD` -/
  | settled
deriving DecidableEq, Repr

/-- The model's state: ports (10_state.md R28), supply (70_reset_and_hazards.md R161), stability of the inputs (R163) and the observation (10_state.md R30). -/
structure State where
  /-- the select port `ctl[2:0]` -/
  ctl : InputPort 3
  /-- the operand port `opnd[63:0]` -/
  opnd : InputPort 64
  /-- the supply is stable -/
  powered : Bool
  /-- how long `ctl` and `opnd` have been stable -/
  stability : Stability
  /-- `res[63:0]` as the driver sampled it for the inputs now presented; `none` where it has not (R30, R31: it is no stored value) -/
  res : Option Word
deriving DecidableEq, Repr

/-- The block has no fault: no operation raises an exception, for any operand (60_exceptions.md R140). So nobody raises one; safe. -/
inductive Fault where
deriving DecidableEq, Repr

/-- Why an evaluation has no result (60_exceptions.md R141). Each errs toward unprovable. -/
inductive Refusal where
  /-- raised by no arm of `exec` here: kept for an operation without a meaning; safe -/
  | notModelled (mnemonic : String)
  /-- raised by `fetch` on a select word with `opsel` = 11 (30_encoding.md R68, which names it ReservedOpsel); safe -/
  | reservedOpsel
  /-- raised by `fetch` when a bit of `ctl` is not driven, and by `evaluate` when a bit of `opnd` that the operation reads is not driven (70_reset_and_hazards.md R164); safe -/
  | inputNotDriven
  /-- raised by `evaluate` when the inputs have not been stable for `T_PD` (70_reset_and_hazards.md R163); safe -/
  | notSettled
  /-- raised by `evaluate` when the supply is not stable (70_reset_and_hazards.md R161); safe -/
  | supplyNotStable
  /-- raised by the driver's action `feedBack` alone, when there is no sampled result to feed back (70_reset_and_hazards.md R166); safe -/
  | noObservation
deriving DecidableEq, Repr

/-- A port all of whose wires are driven to the bits of `v`. -/
def InputPort.drive {w : Nat} (v : BitVec w) : InputPort w := ⟨v, BitVec.allOnes w⟩

/-- A port none of whose wires is driven. -/
def InputPort.floating (w : Nat) : InputPort w := ⟨0#w, 0#w⟩

/-- The state right after a reset of the surrounding design. The block has no reset and no reset value (10_state.md R31, 70_reset_and_hazards.md R160): `res` follows whatever the driver presents.
DESIGN CHOICE (log entry 1): the driver presents zeros on both ports, the supply and the inputs are stable, and nothing has been sampled. -/
def State.reset : State where
  ctl := .drive 0#3
  opnd := .drive 0#64
  powered := true
  stability := .settled
  res := none

end Sys2Proof.Machine
end

