-- ==== Sys2Proof/Machine/Operands.lean ====
section
/-!
DEFINITION. Reading an operand from a port and packing a result onto `res` (30_encoding.md R64, R65).
-/

namespace Sys2Proof.Machine

/-- The low `n` bits of a port, if each of those wires is driven. The other wires are not looked at (30_encoding.md R64, 70_reset_and_hazards.md R164). -/
def InputPort.readLow {w : Nat} (p : InputPort w) (n : Nat) : Option (BitVec n) :=
  if p.driven.extractLsb' 0 n = BitVec.allOnes n then some (p.value.extractLsb' 0 n) else none

/-- Two ports are at the same levels: the same wires are driven, and each of those is at the same level. The level recorded for a wire that is not driven is not compared (70_reset_and_hazards.md R164; log entries 10 and 13). -/
def InputPort.sameLevels {w : Nat} (p q : InputPort w) : Bool :=
  p.driven == q.driven && (p.value &&& p.driven) == (q.value &&& q.driven)

/-- A count on `res`: `zext_64(count)` (30_encoding.md R65, 50_laws.md R125). -/
def packCount (count : Nat) : Word := BitVec.ofNat 64 count

/-- A reversed value on `res`: `zext_64` of it (30_encoding.md R65). -/
def packValue {n : Nat} (r : BitVec n) : Word := r.setWidth 64

end Sys2Proof.Machine
end

