-- ==== Sys2Proof/Machine/Ops.lean ====
section
/-!
DEFINITION. The operations shared by the meanings, and the driver's operations on the inputs.
There is no operation over memory or registers, and no operation that takes an exception or returns from one: the block has none of them (10_state.md R21, R26; 60_exceptions.md R140, R144, R145).
-/

namespace Sys2Proof.Machine

/-- The operation that the level on `ctl` selects at the sample (20_memory.md R46; 30_encoding.md R67, R68; 70_reset_and_hazards.md R164). -/
def fetch (s : State) : Except Refusal Instr :=
  match s.ctl.readLow 3 with
  | none => .error .inputNotDriven
  | some c =>
    match decodeSelect c with
    | .ok i => .ok i
    | .error _ => .error .reservedOpsel

/-- `res <- v`: the settled result is on the port and is sampled (00_scope.md R11, 10_state.md R30). -/
def State.driveRes (s : State) (v : Word) : State := { s with res := some v }

/-- One evaluation of a function of the low `n` bits of `opnd` (00_scope.md R14, 30_encoding.md R64).
It has its result if the supply is stable (70_reset_and_hazards.md R161), the inputs have been stable for `T_PD` (R163) and each bit it reads is driven (R164); otherwise the model refuses it (60_exceptions.md R141). The order in which the conditions are tried is log entry 4. -/
def evaluate (n : Nat) (f : BitVec n → Word) (s : State) : Host.Outcome State Fault Refusal :=
  if s.powered then
    match s.stability with
    | .pending _ => .refused .notSettled
    | .settled =>
      match s.opnd.readLow n with
      | none => .refused .inputNotDriven
      | some x => .next (s.driveRes (f x))
  else .refused .supplyNotStable

/-- The state at power-up: the supply is not stable, no input is driven, nothing has been sampled (70_reset_and_hazards.md R161; the levels are log entry 1's). -/
def State.powerUp : State where
  ctl := .floating 3
  opnd := .floating 64
  powered := false
  stability := .pending 0
  res := none

/-- The driver presents levels on both inputs. If no level changes, the inputs stay as stable as they were and the observation stays; any change starts the settling time again and ends the last observation (70_reset_and_hazards.md R163, R165; log entry 6).
DESIGN CHOICE (log entry 13): a wire that was not driven and is still not driven has not changed and counts as held stable, whatever level is recorded for it; a wire that begins or ceases to be driven has changed. The spec says neither. -/
def State.present (s : State) (c : InputPort 3) (x : InputPort 64) : State :=
  if s.ctl.sameLevels c && s.opnd.sameLevels x then { s with ctl := c, opnd := x }
  else { s with ctl := c, opnd := x, stability := .pending 0, res := none }

/-- The driver holds the inputs for a time `t`. They are settled once they have been stable for `T_PD` in all (70_reset_and_hazards.md R163). -/
def Stability.after : Stability → Nat → Stability
  | .settled, _ => .settled
  | .pending heldFor, t => if Config.tPD ≤ heldFor + t then .settled else .pending (heldFor + t)

/-- The driver holds both inputs for a time `t` and changes nothing. -/
def State.hold (s : State) (t : Nat) : State := { s with stability := s.stability.after t }

/-- The supply becomes stable (70_reset_and_hazards.md R161; log entry 7). -/
def State.powerOn (s : State) : State := { s with powered := true }

/-- The supply goes away: no value of `res` is an observation any more (60_exceptions.md R152, 70_reset_and_hazards.md R161). -/
def State.powerOff (s : State) : State := { s with powered := false, res := none }

end Sys2Proof.Machine
end

