-- ==== Sys2Proof/Machine/Clz.lean ====
section
/-!
DEFINITION. Count leading zeros: CLZ32 and CLZ64 (40_clz.md R80 to R82).
-/

namespace Sys2Proof.Machine

/-- The largest i < k with x[i] = 1, or 0 if there is none. -/
def msbBelow {n : Nat} (x : BitVec n) : Nat → Nat
  | 0 => 0
  | k + 1 => if x.getLsbD k then k else msbBelow x k

/-- `msb(x)`: the largest i with x[i] = 1, for a nonzero x (00_scope.md R13). -/
def msb {n : Nat} (x : BitVec n) : Nat := msbBelow x n

/-- `CLZ_N(x)` (40_clz.md R80). -/
def clz {n : Nat} (x : BitVec n) : Nat := if x = 0#n then n else n - 1 - msb x

/-- CLZ32 (40_clz.md R81). -/
def execClz32 (s : State) : Host.Outcome State Fault Refusal := evaluate 32 (fun x => packCount (clz x)) s

/-- CLZ64 (40_clz.md R82). -/
def execClz64 (s : State) : Host.Outcome State Fault Refusal := evaluate 64 (fun x => packCount (clz x)) s

end Sys2Proof.Machine
end

