-- ==== Sys2Proof/Machine/Ctz.lean ====
section
/-!
DEFINITION. Count trailing zeros: CTZ32 and CTZ64 (41_ctz.md R95 to R97).
-/

namespace Sys2Proof.Machine

/-- The smallest j with i ≤ j < i + k and x[j] = 1, or i + k if there is none. -/
def lsbFrom {n : Nat} (x : BitVec n) (i : Nat) : Nat → Nat
  | 0 => i
  | k + 1 => if x.getLsbD i then i else lsbFrom x (i + 1) k

/-- `lsb(x)`: the smallest i with x[i] = 1, for a nonzero x (00_scope.md R13). -/
def lsb {n : Nat} (x : BitVec n) : Nat := lsbFrom x 0 n

/-- `CTZ_N(x)` (41_ctz.md R95). -/
def ctz {n : Nat} (x : BitVec n) : Nat := if x = 0#n then n else lsb x

/-- CTZ32 (41_ctz.md R96). -/
def execCtz32 (s : State) : Host.Outcome State Fault Refusal := evaluate 32 (fun x => packCount (ctz x)) s

/-- CTZ64 (41_ctz.md R97). -/
def execCtz64 (s : State) : Host.Outcome State Fault Refusal := evaluate 64 (fun x => packCount (ctz x)) s

end Sys2Proof.Machine
end

