-- ==== Sys2Proof/Machine/Rbit.lean ====
section
/-!
DEFINITION. Bit reversal: RBIT32 and RBIT64 (42_rbit.md R110 to R112).
-/

namespace Sys2Proof.Machine

/-- The value r with r[i] = x[n-1-i] for i < k and 0 in every other bit: the first k rounds of R110's loop. -/
def rbitBelow {n : Nat} (x : BitVec n) : Nat → BitVec n
  | 0 => 0#n
  | k + 1 => if x.getLsbD (n - 1 - k) then rbitBelow x k ||| BitVec.twoPow n k else rbitBelow x k

/-- `RBIT_N(x)`: r[i] = x[N-1-i] for every i in [0, N-1] (42_rbit.md R110). -/
def rbit {n : Nat} (x : BitVec n) : BitVec n := rbitBelow x n

/-- RBIT32 (42_rbit.md R111). -/
def execRbit32 (s : State) : Host.Outcome State Fault Refusal := evaluate 32 (fun x => packValue (rbit x)) s

/-- RBIT64 (42_rbit.md R112). -/
def execRbit64 (s : State) : Host.Outcome State Fault Refusal := evaluate 64 (fun x => packValue (rbit x)) s

end Sys2Proof.Machine
end

