-- ==== Sys2Proof/Machine/Dispatch.lean ====
section
/-!
DEFINITION. One arm per operation: its meaning (30_encoding.md R67).
-/

namespace Sys2Proof.Machine

def exec (i : Instr) (s : State) : Host.Outcome State Fault Refusal :=
  match i with
  -- count leading zeros
  | .clz32 => Sys2Proof.Machine.execClz32 s
  | .clz64 => Sys2Proof.Machine.execClz64 s
  -- count trailing zeros
  | .ctz32 => Sys2Proof.Machine.execCtz32 s
  | .ctz64 => Sys2Proof.Machine.execCtz64 s
  -- bit reversal
  | .rbit32 => Sys2Proof.Machine.execRbit32 s
  | .rbit64 => Sys2Proof.Machine.execRbit64 s

end Sys2Proof.Machine
end

