-- ==== Sys2Proof/Machine/Step.lean ====
section
/-!
DEFINITION. One step: one evaluation at the levels now on the ports, sampled (10_state.md R29, R30).
-/

namespace Sys2Proof.Machine

/-- Take the operation `ctl` selects and evaluate it. Nothing else happens: the block has no program counter and no sequencing (10_state.md R22). -/
def step (s : State) : Host.Outcome State Fault Refusal :=
  match fetch s with
  | .ok i => exec i s
  | .error r => .refused r

/-- The driver presents the select word `w` on `ctl`, leaves `opnd` as it is, and waits `T_PD` with the supply stable, so that the next step evaluates it (log entry 8).
A `w` of more than 3 bits is no level of the 3-wire port: `ctl` is then left undriven, and the next step is refused. -/
def State.withFetchWord (s : State) (_nbits w : Nat) : State :=
  { s with
    ctl := if w < 8 then .drive (BitVec.ofNat 3 w) else .floating 3
    powered := true
    stability := .settled
    res := none }

end Sys2Proof.Machine
end

