-- ==== Sys2Proof/Machine/Driver.lean ====
section
/-!
DEFINITION. The second agent: the driver (10_state.md R29, 00_scope.md R14). Its harness (slots, arithmetic, branches: decision D14) is outside the block and outside this model.
-/

namespace Sys2Proof.Machine

/-- What the driver can do to the block (10_state.md R29; 70_reset_and_hazards.md R161, R163, R166). -/
inductive DriverAction where
  /-- present levels on `ctl` and `opnd` -/
  | present (c : InputPort 3) (x : InputPort 64)
  /-- hold both inputs stable for a time -/
  | hold (t : Nat)
  /-- the supply becomes stable -/
  | powerOn
  /-- the supply goes away -/
  | powerOff
  /-- sample `res`: one step of the machine -/
  | sample
  /-- present a select word, and the captured result as the next operand (R166) -/
  | feedBack (c : InputPort 3)
deriving DecidableEq, Repr

/-- One action of the driver. -/
def perform (a : DriverAction) (s : State) : Host.Outcome State Fault Refusal :=
  match a with
  | .present c x => .next (s.present c x)
  | .hold t => .next (s.hold t)
  | .powerOn => .next s.powerOn
  | .powerOff => .next s.powerOff
  | .sample => step s
  | .feedBack c =>
    match s.res with
    | some v => .next (s.present c (.drive v))
    | none => .refused .noObservation

/-- A run of the driver: its actions in order, ended by the first that is refused. -/
def runDriver : List DriverAction → State → Host.Outcome State Fault Refusal
  | [], s => .next s
  | a :: rest, s =>
    match perform a s with
    | .next t => runDriver rest t
    | .fault r => .fault r
    | .refused r => .refused r

end Sys2Proof.Machine
end

