-- ==== Sys2Proof/Machine/Eval.lean ====
section
/-!
DEFINITION. The block's total function `Eval(ctl, opnd)` as 30_encoding.md R67 writes it: a function of driven, settled inputs (10_state.md R29). `step` does not call it; a claim says that the two agree.
-/

namespace Sys2Proof.Machine

/-- `Eval(ctl, opnd)` (30_encoding.md R67). -/
def eval (ctl : Select) (opnd : Word) : Except Refusal Word :=
  let opsel := ctl.extractLsb' 1 2
  let wide := ctl.getLsbD 0
  if opsel = 0b00#2 then
    .ok (if wide then packCount (clz opnd) else packCount (clz (opnd.extractLsb' 0 32)))
  else if opsel = 0b01#2 then
    .ok (if wide then packCount (ctz opnd) else packCount (ctz (opnd.extractLsb' 0 32)))
  else if opsel = 0b10#2 then
    .ok (if wide then packValue (rbit opnd) else packValue (rbit (opnd.extractLsb' 0 32)))
  else .error .reservedOpsel

end Sys2Proof.Machine
end

