-- ==== Sys2Proof/Machine/Flags.lean ====
section
/-!
DEFINITION. Flags: the block has none. No flag, condition code or status output exists, and each operation's rule says "Flags written: none" (10_state.md R23; 40_clz.md R81, R82; 41_ctz.md R96, R97; 42_rbit.md R111, R112).
-/

namespace Sys2Proof.Machine

/-- The flags of the block: none (10_state.md R23). -/
inductive Flag where
deriving DecidableEq, Repr

/-- The flags an operation writes: none, for each. -/
def flagsWritten : Instr → List Flag
  | .clz32 => []
  | .clz64 => []
  | .ctz32 => []
  | .ctz64 => []
  | .rbit32 => []
  | .rbit64 => []

end Sys2Proof.Machine
end

