-- ==== Sys2Proof/Machine/Reference.lean ====
section
/-!
DEFINITION. The spec's informative reference structures (40_clz.md R87; 41_ctz.md R100, R101; 42_rbit.md R115), written from their pseudocode. No meaning calls them; claims compare them with the functions of the rules (R88, R103, R117).
-/

namespace Sys2Proof.Machine

/-- The stage sizes N/2, N/4, ..., 1 of a tree of `k` = log2(N) stages (R87). -/
def stages : Nat → List Nat
  | 0 => []
  | k + 1 => 2 ^ k :: stages k

/-- The stages of the CLZ tree alone: each tests the top s bits, and if they are zero shifts left and adds s to the count (R87). -/
def clzStages {n : Nat} (v : BitVec n) (count : Nat) : List Nat → Nat
  | [] => count
  | s :: rest =>
    if v.extractLsb' (n - s) s = 0#s then clzStages (v <<< s) (count + s) rest
    else clzStages v count rest

/-- `CLZ_TREE_N` with `k` stages and its zero detect (R87). -/
def clzTree {n : Nat} (k : Nat) (x : BitVec n) : Nat := if x = 0#n then n else clzStages x 0 (stages k)

/-- The stages of the CTZ tree alone: each tests the low s bits, and if they are zero shifts right and adds s to the count (R100). -/
def ctzStages {n : Nat} (v : BitVec n) (count : Nat) : List Nat → Nat
  | [] => count
  | s :: rest =>
    if v.extractLsb' 0 s = 0#s then ctzStages (v >>> s) (count + s) rest
    else ctzStages v count rest

/-- `CTZ_TREE_N` with `k` stages and its zero detect (R100). -/
def ctzTree {n : Nat} (k : Nat) (x : BitVec n) : Nat := if x = 0#n then n else ctzStages x 0 (stages k)

/-- The CTZ composition: the reversal network feeding the CLZ tree of `k` stages (R101). -/
def ctzByReversal {n : Nat} (k : Nat) (x : BitVec n) : Nat := clzTree k (rbit x)

/-- `k` rounds of the reversing loop: the bit peeled off `x` enters the accumulator at bit 0 (R115). -/
def rbitRounds {n : Nat} (acc x : BitVec n) : Nat → BitVec n
  | 0 => acc
  | k + 1 => rbitRounds ((acc <<< 1) ||| (if x.getLsbD 0 then BitVec.twoPow n 0 else 0#n)) (x >>> 1) k

/-- `RBIT_LOOP_N` (R115). -/
def rbitLoop {n : Nat} (x : BitVec n) : BitVec n := rbitRounds 0#n x n

/-- `k` rounds of the reading that R115 rejects: the accumulator shifts right and the peeled bit enters at bit N-1. -/
def rejectedRounds {n : Nat} (acc x : BitVec n) : Nat → BitVec n
  | 0 => acc
  | k + 1 => rejectedRounds ((acc >>> 1) ||| (if x.getLsbD 0 then BitVec.twoPow n (n - 1) else 0#n)) (x >>> 1) k

/-- The rejected reading of the source's loop, N rounds (R115, 90_conflicts.md C2). -/
def rejectedLoop {n : Nat} (x : BitVec n) : BitVec n := rejectedRounds 0#n x n

end Sys2Proof.Machine
end

