-- ==== Sys2Proof/Safety.lean ====
section
/-!
DEFINITION. The terms claims use: what the rules ask of a result, bit by bit, and what they ask of the driver for an evaluation to have one.
-/

namespace Sys2Proof.Machine

/-- `c` is the number of most-significant zero bits of `x` before its highest set bit, and N if there is none (40_clz.md R80). Said of the bits alone, so that it does not lean on the model's `clz`. -/
def LeadingZeros {n : Nat} (x : BitVec n) (c : Nat) : Prop :=
  c ≤ n ∧ (∀ i, n - c ≤ i → i < n → x.getLsbD i = false) ∧ (c < n → x.getLsbD (n - 1 - c) = true)

/-- `c` is the number of least-significant zero bits of `x` before its lowest set bit, and N if there is none (41_ctz.md R95). -/
def TrailingZeros {n : Nat} (x : BitVec n) (c : Nat) : Prop :=
  c ≤ n ∧ (∀ i, i < c → x.getLsbD i = false) ∧ (c < n → x.getLsbD c = true)

/-- `r` is `x` with its bit order reversed: r[i] = x[N-1-i] (42_rbit.md R110). -/
def Reversed {n : Nat} (x r : BitVec n) : Prop := ∀ i, i < n → r.getLsbD i = x.getLsbD (n - 1 - i)

/-- The number of set bits of `x` (50_laws.md R131). -/
def popCount {n : Nat} (x : BitVec n) : Nat := (List.range n).countP fun i => x.getLsbD i

/-- `v` is the value on `res` that the operation's own rule gives for the value `x` on `opnd` (40_clz.md R81, R82; 41_ctz.md R96, R97; 42_rbit.md R111, R112; packing 30_encoding.md R65). -/
def IsResult (i : Instr) (x v : Word) : Prop :=
  match i with
  | .clz32 => LeadingZeros (x.extractLsb' 0 32) v.toNat
  | .clz64 => LeadingZeros x v.toNat
  | .ctz32 => TrailingZeros (x.extractLsb' 0 32) v.toNat
  | .ctz64 => TrailingZeros x v.toNat
  | .rbit32 => Reversed (x.extractLsb' 0 32) (v.extractLsb' 0 32) ∧ v.extractLsb' 32 32 = 0#32
  | .rbit64 => Reversed x v

/-- Every wire of `ctl` is at a 0 or a 1 (70_reset_and_hazards.md R164). -/
abbrev SelectDriven (s : State) : Prop := ∀ k, k < 3 → s.ctl.driven.getLsbD k = true

/-- Every bit of `opnd` that the operation reads is at a 0 or a 1 (70_reset_and_hazards.md R164). -/
abbrev OperandDriven (i : Instr) (s : State) : Prop := ∀ k, k < i.width.bits → s.opnd.driven.getLsbD k = true

/-- The supply is stable and the inputs have been stable for `T_PD` (70_reset_and_hazards.md R161, R163). -/
abbrev Settled (s : State) : Prop := s.powered = true ∧ s.stability = .settled

/-- The conditions under which an evaluation of `i` has a result, whatever `ctl` says. -/
abbrev Ready (i : Instr) (s : State) : Prop := Settled s ∧ OperandDriven i s

/-- The driver's duties at a sample are met for the operation `i`: `ctl` is driven and selects it, and the rest is ready. A run is safe if this holds at every sample. -/
abbrev Presents (i : Instr) (s : State) : Prop := SelectDriven s ∧ decodeSelect s.ctl.value = .ok i ∧ Ready i s

/-- The invariant of 10_state.md R31 and 70_reset_and_hazards.md R160: what is on record as observed on `res` is the result for the inputs now presented. -/
def ResCurrent (s : State) : Prop := ∀ v, s.res = some v → ∃ i, Presents i s ∧ IsResult i s.opnd.value v

/-- Two ports agree on the wires that are driven, among the low `n`, and on which those are. -/
def AgreeBelow {w : Nat} (n : Nat) (p q : InputPort w) : Prop :=
  ∀ k, k < n → p.driven.getLsbD k = q.driven.getLsbD k ∧ (p.driven.getLsbD k = true → p.value.getLsbD k = q.value.getLsbD k)

/-- Two states that differ in no more than the levels recorded for wires that are not driven. -/
def Alike (s t : State) : Prop :=
  AgreeBelow 3 s.ctl t.ctl ∧ AgreeBelow 64 s.opnd t.opnd ∧ s.powered = t.powered ∧ s.stability = t.stability ∧ s.res = t.res

/-- Two actions of the driver that differ in no more than the levels recorded for wires that are not driven. -/
def AlikeActions (a b : DriverAction) : Prop :=
  match a, b with
  | .present c x, .present d y => AgreeBelow 3 c d ∧ AgreeBelow 64 x y
  | .feedBack c, .feedBack d => AgreeBelow 3 c d
  | .hold t, .hold u => t = u
  | .powerOn, .powerOn => True
  | .powerOff, .powerOff => True
  | .sample, .sample => True
  | _, _ => False

end Sys2Proof.Machine
end

