-- ==== Sys2Proof/Certificates/Slice0/Obligations.lean ====
section
/-!
DEFINITION. Statements about the model, each from the numbered rules of spec/. OBLIGATIONS.json gives each its tier, basis and rules.
-/

open Sys2Proof Sys2Proof.Machine

/-! ## Encoding -/

/-- R61, R62, R63: the two fields of `CTL3`, `opsel` = `ctl[2:1]` and `wsel` = `ctl[0]`, and what each value of them selects. -/
def Obligations.SelectFieldsChooseFunctionAndWidth : Prop :=
  ∀ c : Select,
    (c.extractLsb' 1 2 = 0b00#2 → ∃ i, decodeSelect c = .ok i ∧ i.func = .clz) ∧
    (c.extractLsb' 1 2 = 0b01#2 → ∃ i, decodeSelect c = .ok i ∧ i.func = .ctz) ∧
    (c.extractLsb' 1 2 = 0b10#2 → ∃ i, decodeSelect c = .ok i ∧ i.func = .rbit) ∧
    (c.extractLsb' 1 2 = 0b11#2 → decodeSelect c = .error .reservedOpsel) ∧
    (∀ i, decodeSelect c = .ok i →
      (c.extractLsb' 0 1 = 0#1 → i.width.bits = 32) ∧ (c.extractLsb' 0 1 = 1#1 → i.width.bits = 64))

/-- The words of the opcode map, written out (30_encoding.md section 3, and section 4's table of mnemonics), through the decoder and through the host's numbering of the table. -/
def Obligations.OpcodeMapWordsDecode : Prop :=
  decodeSelect 0b000#3 = .ok .clz32 ∧ decodeSelect 0b001#3 = .ok .clz64 ∧
  decodeSelect 0b010#3 = .ok .ctz32 ∧ decodeSelect 0b011#3 = .ok .ctz64 ∧
  decodeSelect 0b100#3 = .ok .rbit32 ∧ decodeSelect 0b101#3 = .ok .rbit64 ∧
  decodeSelect 0b110#3 = .error .reservedOpsel ∧ decodeSelect 0b111#3 = .error .reservedOpsel ∧
  decodeTableWord 8 0 = some .clz32 ∧ decodeTableWord 8 1 = some .clz64 ∧
  decodeTableWord 8 2 = some .ctz32 ∧ decodeTableWord 8 3 = some .ctz64 ∧
  decodeTableWord 8 4 = some .rbit32 ∧ decodeTableWord 8 5 = some .rbit64 ∧
  decodeTableWord 8 6 = none ∧ decodeTableWord 8 7 = none

/-- Decode and encode agree both ways, on select words and on bytes: every operation's word decodes to it and leaves the bytes after it, and whatever decodes to an operation is that operation's word. The byte that carries a select word is the model's choice (log entry 5). -/
def Obligations.DecodeAndEncodeAgree : Prop :=
  (∀ i : Instr, decodeSelect (encode i) = .ok i) ∧
  (∀ (c : Select) (i : Instr), decodeSelect c = .ok i → encode i = c) ∧
  (∀ (i : Instr) (rest : List Byte), decodeBytes (encodeBytes i ++ rest) = .ok (i, rest)) ∧
  (∀ (bytes : List Byte) (i : Instr) (rest : List Byte),
    decodeBytes bytes = .ok (i, rest) → bytes = encodeBytes i ++ rest)

/-- 30_encoding.md section 3 (the spec derives it from R67 and R69): each of the 8 select words selects one row of the opcode map, six of them an operation and two of them reserved, no two the same operation; and each of the 2^64 operands is accepted by each defined code. -/
def Obligations.DecodeIsTotalAndEveryOperandAccepted : Prop :=
  (∀ c : Select, (c.toNat < 6 ∧ ∃ i, decodeSelect c = .ok i) ∨
    (6 ≤ c.toNat ∧ decodeSelect c = .error .reservedOpsel)) ∧
  (∀ (c d : Select) (i : Instr), decodeSelect c = .ok i → decodeSelect d = .ok i → c = d) ∧
  (∀ (s : State) (c : Select) (x : Word), Settled s → c.toNat < 6 →
    ∃ t, step { s with ctl := .drive c, opnd := .drive x } = .next t)

/-! ## A step -/

/-- A step runs the operation that `ctl` selects, and adds nothing around it (30_encoding.md section 3, 10_state.md R22: no sequencing). -/
def Obligations.StepRunsTheSelectedOperation : Prop :=
  ∀ (s : State) (i : Instr), SelectDriven s → decodeSelect s.ctl.value = .ok i → step s = exec i s

/-- The state the host sets up to run a table word runs it: what the decoder reads from the word is what the next step executes, on the operand that was on the port (log entry 8). -/
def Obligations.PresentedTableWordRuns : Prop :=
  ∀ (s : State) (nbits w : Nat) (i : Instr), decodeTableWord nbits w = some i →
    (s.withFetchWord nbits w).opnd = s.opnd ∧
    step (s.withFetchWord nbits w) = exec i (s.withFetchWord nbits w)

/-- R67: a settled evaluation with driven inputs gives what `Eval(ctl, opnd)` gives, and is refused where that refuses. -/
def Obligations.StepIsEvalOfTheInputs : Prop :=
  ∀ s : State, SelectDriven s → Settled s → (∀ i, decodeSelect s.ctl.value = .ok i → OperandDriven i s) →
    (∀ v, eval s.ctl.value s.opnd.value = .ok v → step s = .next { s with res := some v }) ∧
    (∀ r, eval s.ctl.value s.opnd.value = .error r → step s = .refused r)

/-- A step completes exactly when the driver has met its duties for the operation it selects, and is refused otherwise (60_exceptions.md section 1: one outcome, a result or a refusal; 70_reset_and_hazards.md section 1 for the supply and section 2 for the inputs). That a sample without a stable supply or before the inputs have settled is a refused step is the model's reading (log entry 11). -/
def Obligations.StepCompletesExactlyWhenDutiesMet : Prop :=
  ∀ s : State,
    ((∃ t, step s = .next t) ↔ ∃ i, Presents i s) ∧
    ((∃ r, step s = .refused r) ↔ ¬ ∃ i, Presents i s)

/-! ## Results: each operation completes, with its rule's value -/

/-- R81: CLZ32, its encoding, its result for every operand, its corner cases and its worked example; nothing but `res` changes. -/
def Obligations.Clz32CountsLeadingZeros : Prop :=
  decodeSelect 0b000#3 = .ok .clz32 ∧ flagsWritten .clz32 = [] ∧
  ∀ s : State, Ready .clz32 s → ∃ c : Nat,
    LeadingZeros (s.opnd.value.extractLsb' 0 32) c ∧
    exec .clz32 s = .next { s with res := some (BitVec.ofNat 64 c) } ∧
    (s.opnd.value.extractLsb' 0 32 = 0#32 → c = 32) ∧
    (s.opnd.value.getLsbD 31 = true → c = 0) ∧
    (s.opnd.value = 0xFFFFFFFF00000000#64 → c = 32) ∧
    (BitVec.ofNat 64 c).extractLsb' 6 58 = 0#58 ∧
    (s.opnd.value = 0x0000000012345678#64 → c = 3)

/-- R82: CLZ64, its encoding, its result for every operand, its corner cases and its worked example; nothing but `res` changes. -/
def Obligations.Clz64CountsLeadingZeros : Prop :=
  decodeSelect 0b001#3 = .ok .clz64 ∧ flagsWritten .clz64 = [] ∧
  ∀ s : State, Ready .clz64 s → ∃ c : Nat,
    LeadingZeros s.opnd.value c ∧
    exec .clz64 s = .next { s with res := some (BitVec.ofNat 64 c) } ∧
    (s.opnd.value = 0#64 → c = 64) ∧
    (s.opnd.value = 1#64 → c = 63) ∧
    (s.opnd.value.getLsbD 63 = true → c = 0) ∧
    (BitVec.ofNat 64 c).extractLsb' 7 57 = 0#57

/-- R96: CTZ32, its encoding, its result for every operand, its corner cases and its worked example; nothing but `res` changes. -/
def Obligations.Ctz32CountsTrailingZeros : Prop :=
  decodeSelect 0b010#3 = .ok .ctz32 ∧ flagsWritten .ctz32 = [] ∧
  ∀ s : State, Ready .ctz32 s → ∃ c : Nat,
    TrailingZeros (s.opnd.value.extractLsb' 0 32) c ∧
    exec .ctz32 s = .next { s with res := some (BitVec.ofNat 64 c) } ∧
    (s.opnd.value.extractLsb' 0 32 = 0#32 → c = 32) ∧
    (s.opnd.value = 0xFFFFFFFF00000000#64 → c = 32) ∧
    (s.opnd.value.getLsbD 0 = true → c = 0) ∧
    (s.opnd.value.extractLsb' 0 32 = 0x80000000#32 → c = 31) ∧
    (BitVec.ofNat 64 c).extractLsb' 6 58 = 0#58 ∧
    (s.opnd.value = 1#64 → c = 0)

/-- R97: CTZ64, its encoding, its result for every operand, its corner cases and its worked example; nothing but `res` changes. -/
def Obligations.Ctz64CountsTrailingZeros : Prop :=
  decodeSelect 0b011#3 = .ok .ctz64 ∧ flagsWritten .ctz64 = [] ∧
  ∀ s : State, Ready .ctz64 s → ∃ c : Nat,
    TrailingZeros s.opnd.value c ∧
    exec .ctz64 s = .next { s with res := some (BitVec.ofNat 64 c) } ∧
    (s.opnd.value = 0#64 → c = 64) ∧
    (s.opnd.value.getLsbD 0 = true → c = 0) ∧
    (s.opnd.value = 0x8000000000000000#64 → c = 63) ∧
    (BitVec.ofNat 64 c).extractLsb' 7 57 = 0#57

/-- R111: RBIT32, its encoding, its result for every operand, its corner cases and its worked example; nothing but `res` changes. -/
def Obligations.Rbit32ReversesLowHalf : Prop :=
  decodeSelect 0b100#3 = .ok .rbit32 ∧ flagsWritten .rbit32 = [] ∧
  ∀ s : State, Ready .rbit32 s → ∃ r : BitVec 32,
    Reversed (s.opnd.value.extractLsb' 0 32) r ∧
    exec .rbit32 s = .next { s with res := some (r.setWidth 64) } ∧
    (r.setWidth 64).extractLsb' 32 32 = 0#32 ∧
    (s.opnd.value.extractLsb' 0 32 = 0#32 → r = 0#32) ∧
    (s.opnd.value.extractLsb' 0 32 = 0xFFFFFFFF#32 → r = 0xFFFFFFFF#32) ∧
    (s.opnd.value = 0xFFFFFFFF00000000#64 → r = 0#32) ∧
    (s.opnd.value = 1#64 → r.setWidth 64 = 0x0000000080000000#64)

/-- R112: RBIT64, its encoding, its result for every operand, its corner cases and its worked example; nothing but `res` changes. A palindromic pattern gives itself. -/
def Obligations.Rbit64ReversesOperand : Prop :=
  decodeSelect 0b101#3 = .ok .rbit64 ∧ flagsWritten .rbit64 = [] ∧
  ∀ s : State, Ready .rbit64 s → ∃ r : Word,
    Reversed s.opnd.value r ∧
    exec .rbit64 s = .next { s with res := some r } ∧
    (s.opnd.value = 0#64 → r = 0#64) ∧
    (s.opnd.value = 0xFFFFFFFFFFFFFFFF#64 → r = 0xFFFFFFFFFFFFFFFF#64) ∧
    ((∀ i, i < 64 → s.opnd.value.getLsbD i = s.opnd.value.getLsbD (63 - i)) → r = s.opnd.value) ∧
    (s.opnd.value = 0x8000000000000001#64 → r = 0x8000000000000001#64) ∧
    (s.opnd.value = 1#64 → r = 0x8000000000000000#64)

/-- R84, R99: a zero operand is no error and no unspecified value; each count of it is the width. -/
def Obligations.ZeroOperandCountsTheWidth : Prop :=
  clz 0#32 = 32 ∧ clz 0#64 = 64 ∧ ctz 0#32 = 32 ∧ ctz 0#64 = 64 ∧
  (∀ s : State, Ready .clz32 s → s.opnd.value.extractLsb' 0 32 = 0#32 →
    exec .clz32 s = .next { s with res := some 32#64 }) ∧
  (∀ s : State, Ready .clz64 s → s.opnd.value = 0#64 → exec .clz64 s = .next { s with res := some 64#64 }) ∧
  (∀ s : State, Ready .ctz32 s → s.opnd.value.extractLsb' 0 32 = 0#32 →
    exec .ctz32 s = .next { s with res := some 32#64 }) ∧
  (∀ s : State, Ready .ctz64 s → s.opnd.value = 0#64 → exec .ctz64 s = .next { s with res := some 64#64 })

/-- R65, R125: how a result stands on `res`: counts exact, in [0, N], zero-extended with the high bits named zero; RBIT64 whole; RBIT32 in the low half under zeros. -/
def Obligations.ResultPackingOnRes : Prop :=
  ∀ (i : Instr) (s t : State) (v : Word), exec i s = .next t → t.res = some v →
    (i = .clz32 → v = (BitVec.ofNat 7 (clz (s.opnd.value.extractLsb' 0 32))).setWidth 64 ∧
      v.toNat = clz (s.opnd.value.extractLsb' 0 32) ∧ v.toNat ≤ 32) ∧
    (i = .clz64 → v = (BitVec.ofNat 7 (clz s.opnd.value)).setWidth 64 ∧ v.toNat = clz s.opnd.value ∧ v.toNat ≤ 64) ∧
    (i = .ctz32 → v = (BitVec.ofNat 7 (ctz (s.opnd.value.extractLsb' 0 32))).setWidth 64 ∧
      v.toNat = ctz (s.opnd.value.extractLsb' 0 32) ∧ v.toNat ≤ 32) ∧
    (i = .ctz64 → v = (BitVec.ofNat 7 (ctz s.opnd.value)).setWidth 64 ∧ v.toNat = ctz s.opnd.value ∧ v.toNat ≤ 64) ∧
    (i.func ≠ .rbit → v.extractLsb' 7 57 = 0#57 ∧ (i.width.bits = 32 → v.extractLsb' 6 58 = 0#58)) ∧
    (i = .rbit64 → v = rbit s.opnd.value) ∧
    (i = .rbit32 → v.extractLsb' 0 32 = rbit (s.opnd.value.extractLsb' 0 32) ∧ v.extractLsb' 32 32 = 0#32)

/-- R127: an operand with its top bit set is a large unsigned value, not a negative one: its leading zeros are 0, and its unsigned value is at least 2^(N-1). -/
def Obligations.TopBitSetIsALargeUnsignedValue : Prop :=
  (∀ s : State, Ready .clz32 s → s.opnd.value.getLsbD 31 = true →
    exec .clz32 s = .next { s with res := some 0#64 } ∧ 2 ^ 31 ≤ (s.opnd.value.extractLsb' 0 32).toNat) ∧
  (∀ s : State, Ready .clz64 s → s.opnd.value.getLsbD 63 = true →
    exec .clz64 s = .next { s with res := some 0#64 } ∧ 2 ^ 63 ≤ s.opnd.value.toNat)

/-! ## Frame, and what an outcome depends on -/

/-- The frame of all six operations: a completed evaluation changes nothing but `res`, which it sets; and no operation writes a flag (10_state.md section 1: there is nothing else to write). -/
def Obligations.EvaluationChangesOnlyRes : Prop :=
  ∀ (i : Instr) (s t : State), exec i s = .next t →
    t.ctl = s.ctl ∧ t.opnd = s.opnd ∧ t.powered = s.powered ∧ t.stability = s.stability ∧
    (∃ v, t.res = some v) ∧ flagsWritten i = []

/-- R27: the result is a function of (`ctl`, `opnd`) alone; two evaluations with equal inputs give equal results, whatever came before. -/
def Obligations.EqualInputsGiveEqualResults : Prop :=
  ∀ s t s' t' : State, s.ctl = t.ctl → s.opnd = t.opnd → step s = .next s' → step t = .next t' → s'.res = t'.res

/-- Repeating an evaluation with the same inputs changes nothing (20_memory.md section 1: evaluation is idempotent). -/
def Obligations.RepeatedEvaluationIsIdempotent : Prop :=
  ∀ s t : State, step s = .next t → step t = .next t

/-- 30_encoding.md section 2 (R64), and 70_reset_and_hazards.md section 2 (R164) for wires that are not driven: a 32-bit operation does not see `opnd[63:32]`, neither their levels nor whether they are driven; a 64-bit operation reads all 64 bits, so one undriven bit stops it, and its result changes with the operand: RBIT64 tells any two operands apart (inferred from R64's 'all 64 bits are the operand' and R110). -/
def Obligations.OperandIsTheLowNBits : Prop :=
  (∀ (i : Instr) (s t u : State), i.width.bits = 32 → s.powered = t.powered → s.stability = t.stability →
    AgreeBelow 32 s.opnd t.opnd → exec i s = .next u → ∃ v, exec i t = .next { t with res := v } ∧ v = u.res) ∧
  (∀ (i : Instr) (s : State) (k : Nat), i.width.bits = 64 → k < 64 → s.opnd.driven.getLsbD k = false →
    ∃ r, exec i s = .refused r) ∧
  (∀ (s t s' t' : State), exec .rbit64 s = .next s' → exec .rbit64 t = .next t' → s'.res = t'.res →
    s.opnd.value = t.opnd.value)

/-- The level recorded for a wire that is not driven has no effect on the outcome of a step: the result, or the refusal and its reason, is the same (70_reset_and_hazards.md section 2). The record is the model's own (log entry 10), and which reason is given when several conditions meet is its choice (log entry 4). -/
def Obligations.UndrivenLevelsHaveNoEffect : Prop :=
  ∀ s t : State, AgreeBelow 3 s.ctl t.ctl → AgreeBelow 64 s.opnd t.opnd → s.powered = t.powered →
    s.stability = t.stability →
    (∀ s', step s = .next s' → ∃ t', step t = .next t' ∧ t'.res = s'.res) ∧
    (∀ r, step s = .refused r → step t = .refused r)

/-- The same over every run of the driver: two runs whose states and presentations differ in no more than the levels recorded for wires that are not driven end alike, with the same observation, or are refused for the same reason (70_reset_and_hazards.md section 2). It rests on the model's choices: the record (log entry 10), a wire that stays undriven being no change (log entry 13), the order of refusals (log entry 4) and the driver's actions (log entry 12). -/
def Obligations.UndrivenLevelsHaveNoEffectOnDriverRuns : Prop :=
  ∀ (as bs : List DriverAction) (s t : State), List.Forall₂ AlikeActions as bs → Alike s t →
    (∀ s', runDriver as s = .next s' → ∃ t', runDriver bs t = .next t' ∧ Alike s' t') ∧
    (∀ r, runDriver as s = .refused r → runDriver bs t = .refused r)

/-! ## Refusals -/

/-- R68: an evaluation with a reserved code has no result and admits no value of `res`; where nothing else is amiss the refusal is the one R67 names. -/
def Obligations.ReservedCodesAreRefused : Prop :=
  ∀ s : State, SelectDriven s → s.ctl.value = 0b110#3 ∨ s.ctl.value = 0b111#3 →
    (∃ r, step s = .refused r) ∧ (∀ t, step s ≠ .next t) ∧
    (Settled s → (∀ k, k < 64 → s.opnd.driven.getLsbD k = true) → step s = .refused .reservedOpsel)

/-- R141: each of the three input conditions without a defined result is refused, and none is a fault. The second speaks of a bit the selected operation reads (R164); the third of inputs not stable for `T_PD`. -/
def Obligations.ThreeInputConditionsAreRefused : Prop :=
  ∀ s : State,
    ((SelectDriven s ∧ decodeSelect s.ctl.value = .error .reservedOpsel) ∨
     (∃ k, k < 3 ∧ s.ctl.driven.getLsbD k = false) ∨
     (∃ i k, SelectDriven s ∧ decodeSelect s.ctl.value = .ok i ∧ k < i.width.bits ∧ s.opnd.driven.getLsbD k = false) ∨
     (∃ t, s.stability = .pending t)) →
    (∃ r, step s = .refused r) ∧ ∀ e, step s ≠ .fault e

/-- R164: an evaluation is refused when a bit it reads is undriven, and a 32-bit operation completes with `opnd[63:32]` at any levels, driven or not. -/
def Obligations.UndrivenBitsRefusedExceptTheIgnoredHalf : Prop :=
  (∀ (s : State) (k : Nat), k < 3 → s.ctl.driven.getLsbD k = false → ∃ r, step s = .refused r) ∧
  (∀ (s : State) (i : Instr) (k : Nat), SelectDriven s → decodeSelect s.ctl.value = .ok i → k < i.width.bits →
    s.opnd.driven.getLsbD k = false → ∃ r, step s = .refused r) ∧
  (∀ (s : State) (i : Instr), SelectDriven s → decodeSelect s.ctl.value = .ok i → i.width.bits = 32 → Settled s →
    (∀ k, k < 32 → s.opnd.driven.getLsbD k = true) →
    ∃ v, IsResult i s.opnd.value v ∧ step s = .next { s with res := some v })

/-- R161: before the supply is stable and the inputs have been stable for `T_PD` there is no observation of `res`; after that the evaluation has its result. -/
def Obligations.NoObservationBeforeSupplyAndInputsAreStable : Prop :=
  (∀ s : State, ¬ Settled s → (∀ t, step s ≠ .next t) ∧ ∃ r, step s = .refused r) ∧
  (∀ (s : State) (v : Word), Settled s → SelectDriven s → (∀ k, k < 64 → s.opnd.driven.getLsbD k = true) →
    eval s.ctl.value s.opnd.value = .ok v → step s = .next { s with res := some v })

/-- R140: no operation raises an exception, for any operand. -/
def Obligations.NoOperationRaisesAnException : Prop :=
  (∀ (i : Instr) (s : State), Ready i s → ∃ t, exec i s = .next t) ∧
  (∀ (i : Instr) (s : State) (e : Fault), exec i s ≠ .fault e) ∧
  (∀ (s : State) (e : Fault), step s ≠ .fault e)

/-! ## The driver, settling, and the invariant -/

/-- A sample taken sooner than `T_PD` after a change of `ctl` or of `opnd` is refused (70_reset_and_hazards.md section 2, 20_memory.md section 2: a change of `ctl` falls under the same rule). Any change of a level, or of whether a wire is driven, counts (log entries 6 and 13), and the early sample is a refused step (log entry 11). -/
def Obligations.EarlySampleIsRefused : Prop :=
  ∀ (s : State) (c : InputPort 3) (x : InputPort 64) (t : Nat),
    ¬ (AgreeBelow 3 s.ctl c ∧ AgreeBelow 64 s.opnd x) → t < Config.tPD →
    ∃ r, runDriver [.present c x, .hold t, .sample] s = .refused r

/-- Holding the inputs for one time and then another is holding them for the sum: stability adds up (70_reset_and_hazards.md section 2). -/
def Obligations.HoldingTimesAddUp : Prop :=
  ∀ (s : State) (t u : Nat), (s.hold t).hold u = s.hold (t + u)

/-- R162: from any state whatever (right after a reset of the surrounding design, at power-up, or any other), once the supply is stable and driven inputs have been held for `T_PD`, the first sample is `Eval(ctl, opnd)` of the current inputs; nothing needs initialising. -/
def Obligations.FirstSettledSampleIsEval : Prop :=
  ∀ (s : State) (c : Select) (x v : Word) (t : Nat), Config.tPD ≤ t → eval c x = .ok v →
    ∃ s', runDriver [.powerOn, .present (.drive c) (.drive x), .hold t, .sample] s = .next s' ∧
      s'.res = some v ∧ s'.ctl = .drive c ∧ s'.opnd = .drive x

/-- The two-evaluation composition: RBIT, then CLZ of the captured result, gives what CTZ gives, at both widths and for every operand; and at both widths the second hop needs a settling time of its own, without which its sample is refused (41_ctz.md section 4, 70_reset_and_hazards.md section 2; the actions and the refusal are log entries 11 and 12). -/
def Obligations.ReversalThenClzIsCtzOverTwoEvaluations : Prop :=
  ∀ (s : State) (x : Word) (t u : Nat), Config.tPD ≤ t →
    (Config.tPD ≤ u →
      (∃ a b v, runDriver [.powerOn, .present (.drive 0b101#3) (.drive x), .hold t, .sample,
          .feedBack (.drive 0b001#3), .hold u, .sample] s = .next a ∧
        runDriver [.powerOn, .present (.drive 0b011#3) (.drive x), .hold t, .sample] s = .next b ∧
        a.res = some v ∧ b.res = some v) ∧
      (∃ a b v, runDriver [.powerOn, .present (.drive 0b100#3) (.drive x), .hold t, .sample,
          .feedBack (.drive 0b000#3), .hold u, .sample] s = .next a ∧
        runDriver [.powerOn, .present (.drive 0b010#3) (.drive x), .hold t, .sample] s = .next b ∧
        a.res = some v ∧ b.res = some v)) ∧
    (u < Config.tPD →
      (∃ r, runDriver [.powerOn, .present (.drive 0b101#3) (.drive x), .hold t, .sample,
        .feedBack (.drive 0b001#3), .hold u, .sample] s = .refused r) ∧
      (∃ r, runDriver [.powerOn, .present (.drive 0b100#3) (.drive x), .hold t, .sample,
        .feedBack (.drive 0b000#3), .hold u, .sample] s = .refused r))

/-- The invariant at reset (10_state.md section 3). -/
def Obligations.ResetObservesNothingStale : Prop := ResCurrent State.reset ∧ ResCurrent State.powerUp

/-- The invariant that every step keeps, from every state that has it: what is on record as observed on `res` is the result, as the operation's own rule describes it bit by bit, for the inputs now on the ports, and the driver's duties hold for them; and a step that completes leaves such a record (10_state.md sections 2 and 3, 70_reset_and_hazards.md section 1). The record and the stability that State holds are the model's (log entries 2, 7 and 11). -/
def Obligations.StepKeepsResCurrent : Prop :=
  ∀ s s' : State, ResCurrent s → step s = .next s' → ResCurrent s' ∧ ∃ v, s'.res = some v

/-- The same invariant over every run of the driver: presenting, holding, sampling, feeding back, losing and regaining the supply, in any order and number. It rests on the model's choices: what presenting and losing the supply do to the record of `res` (log entry 2), input stability counting also without a stable supply (log entry 7), what counts as a change of the inputs (log entries 6 and 13), and the set of the driver's actions (log entry 12). -/
def Obligations.EveryDriverRunKeepsResCurrent : Prop :=
  ∀ (actions : List DriverAction) (s s' : State), ResCurrent s → runDriver actions s = .next s' → ResCurrent s'

/-! ## The functions and their laws -/

/-- R13: `msb` is the largest and `lsb` the smallest index of a set bit of a nonzero value. -/
def Obligations.MsbAndLsbFindTheEndSetBits : Prop :=
  ∀ (n : Nat) (x : BitVec n), x ≠ 0#n →
    (msb x < n ∧ x.getLsbD (msb x) = true ∧ ∀ j, x.getLsbD j = true → j ≤ msb x) ∧
    (lsb x < n ∧ x.getLsbD (lsb x) = true ∧ ∀ j, x.getLsbD j = true → lsb x ≤ j)

/-- R80: `CLZ_N(x)` is the number of most-significant zero bits before the highest set bit, and N for x = 0. -/
def Obligations.ClzIsTheLeadingZeroCount : Prop :=
  ∀ (n : Nat) (x : BitVec n), LeadingZeros x (clz x) ∧ (x = 0#n → clz x = n) ∧
    (x ≠ 0#n → clz x = n - 1 - msb x ∧ msb x < n)

/-- R95: `CTZ_N(x)` is the number of least-significant zero bits before the lowest set bit, and N for x = 0. -/
def Obligations.CtzIsTheTrailingZeroCount : Prop :=
  ∀ (n : Nat) (x : BitVec n), TrailingZeros x (ctz x) ∧ (x = 0#n → ctz x = n) ∧ (x ≠ 0#n → ctz x = lsb x)

/-- R110: `RBIT_N(x)[i] = x[N-1-i]` for every i in [0, N-1]. -/
def Obligations.RbitReversesTheBitOrder : Prop :=
  ∀ (n : Nat) (x : BitVec n) (i : Nat), i < n → (rbit x).getLsbD i = x.getLsbD (n - 1 - i)

/-- R83: the count of CLZ is an integer in [0, N] for every operand; and on the port it is so for both CLZ operations. -/
def Obligations.LeadingZeroCountLiesInRange : Prop :=
  (∀ (n : Nat) (x : BitVec n), clz x ≤ n) ∧
  (∀ (s : State), Ready .clz32 s → ∃ v : Word, exec .clz32 s = .next { s with res := some v } ∧ v.toNat ≤ 32) ∧
  (∀ (s : State), Ready .clz64 s → ∃ v : Word, exec .clz64 s = .next { s with res := some v } ∧ v.toNat ≤ 64)

/-- 40_clz.md section 3 and 41_ctz.md section 3 (sentences the spec derives from R80 and R95): a count is at most N and reaches it only for x = 0. -/
def Obligations.CountReachesTheWidthOnlyAtZero : Prop :=
  ∀ (n : Nat) (x : BitVec n), ctz x ≤ n ∧ (ctz x = n ↔ x = 0#n) ∧ (clz x = n ↔ x = 0#n)

/-- 40_clz.md section 3 (the 32-bit half is the spec's derivation from R80): for a nonzero x, CLZ is N - 1 - floor(log2(x)); N is reached only by x = 0. -/
def Obligations.ClzIsWidthLessLogTwo : Prop :=
  (∀ x : BitVec 64, x ≠ 0#64 → Nat.log2 x.toNat ≤ 63 ∧ clz x = 63 - Nat.log2 x.toNat) ∧
  (∀ x : BitVec 32, x ≠ 0#32 → Nat.log2 x.toNat ≤ 31 ∧ clz x = 31 - Nat.log2 x.toNat) ∧
  (∀ x : BitVec 64, clz x = 64 → x = 0#64) ∧ (∀ x : BitVec 32, clz x = 32 → x = 0#32)

/-- 40_clz.md section 3 (the spec derives it from R80): `CLZ_64(zext_64(v)) = 32 + CLZ_32(v)` for every v, 0 among them where both are 64; so CLZ32 on a 64-bit tree subtracts 32. -/
def Obligations.ClzOfTheTwoWidths : Prop :=
  (∀ v : BitVec 32, clz (v.setWidth 64) = 32 + clz v) ∧
  clz ((0#32).setWidth 64) = 64 ∧ 32 + clz (0#32) = 64 ∧
  (∀ x : Word, clz (x.extractLsb' 0 32) = clzTree 6 ((x.extractLsb' 0 32).setWidth 64) - 32)

/-- 41_ctz.md section 4 (the spec derives it from R95): `CTZ_64(zext_64(v)) = CTZ_32(v)` for nonzero v, and at 0 they are 64 and 32; so CTZ32 on a 64-bit tree is clamped to 32. -/
def Obligations.CtzOfTheTwoWidths : Prop :=
  (∀ v : BitVec 32, v ≠ 0#32 → ctz (v.setWidth 64) = ctz v) ∧ ctz 0#64 = 64 ∧ ctz 0#32 = 32 ∧
  (∀ x : Word, ctz (x.extractLsb' 0 32) = min 32 (ctzTree 6 ((x.extractLsb' 0 32).setWidth 64)))

/-- 42_rbit.md section 4 (the spec derives it from R110): `RBIT_32(v)` is the upper half of `RBIT_64(zext_64(v))`. -/
def Obligations.RbitOfTheTwoWidths : Prop :=
  ∀ v : BitVec 32, rbit v = (rbit (v.setWidth 64)).extractLsb' 32 32

/-- 42_rbit.md section 3 (the clause about the port is the spec's derivation from R111): RBIT is an involution, so a bijection; and on the port, an RBIT32 of an RBIT32 gives the low half of the first operand, zero-extended. -/
def Obligations.RbitIsAnInvolution : Prop :=
  (∀ (n : Nat) (x : BitVec n), rbit (rbit x) = x) ∧
  (∀ n : Nat, Function.Bijective fun x : BitVec n => rbit x) ∧
  (∀ (s t u : State) (r : Word), exec .rbit32 s = .next t → t.res = some r →
    exec .rbit32 { t with opnd := .drive r } = .next u → u.res = some ((s.opnd.value.extractLsb' 0 32).setWidth 64))

/-- 42_rbit.md section 4 (the spec derives it from R110): the network is a permutation of wires: output bit i is input bit N-1-i and depends on no other bit. -/
def Obligations.EachReversedBitDependsOnOneInputBit : Prop :=
  ∀ (n i : Nat), i < n →
    (∀ x y : BitVec n, x.getLsbD (n - 1 - i) = y.getLsbD (n - 1 - i) ↔ (rbit x).getLsbD i = (rbit y).getLsbD i)

/-- 50_laws.md section 2 (the spec derives it from R80, R95, R110; 90_conflicts.md C1): each count is the other count of the reversal, at 0 too; the sum of CLZ(x) and CTZ(RBIT(x)) is 2 CLZ(x), so it is N only when CLZ(x) = N/2, and the source's own cross-check is false. -/
def Obligations.CountsThroughReversal : Prop :=
  (∀ (n : Nat) (x : BitVec n), clz x = ctz (rbit x) ∧ ctz x = clz (rbit x)) ∧
  (∀ n : Nat, clz (0#n) = n ∧ ctz (0#n) = n ∧ clz (rbit (0#n)) = n ∧ ctz (rbit (0#n)) = n) ∧
  (∀ (n : Nat) (x : BitVec n), clz x + ctz (rbit x) = 2 * clz x) ∧
  (∀ n : Nat, clz (0#n) + ctz (rbit (0#n)) = 2 * n) ∧
  ¬ (∀ x : BitVec 64, clz x + ctz (rbit x) = 64) ∧ ¬ (∀ x : BitVec 32, clz x + ctz (rbit x) = 32)

/-- 50_laws.md section 2 (the spec derives it from R80 and R95): for a nonzero x the two counts sum to at most N - 1, with equality exactly for a single set bit; for 0 the sum is 2N. -/
def Obligations.SumOfTheTwoCounts : Prop :=
  (∀ (n : Nat) (x : BitVec n), x ≠ 0#n →
    clz x + ctz x ≤ n - 1 ∧ (clz x + ctz x = n - 1 ↔ ∃ k, k < n ∧ x = BitVec.twoPow n k)) ∧
  (∀ n : Nat, clz (0#n) + ctz (0#n) = 2 * n)

/-- 50_laws.md section 2 (the spec derives it from R80, R95, R110): RBIT keeps the number of set bits; the single-bit and the single-clear-bit classes, for every k. At N = 1 the single clear bit leaves 0, so the clear-bit counts are stated for N > 1. -/
def Obligations.SingleBitClasses : Prop :=
  (∀ (n : Nat) (x : BitVec n), popCount (rbit x) = popCount x) ∧
  (∀ n k : Nat, k < n →
    rbit (BitVec.twoPow n k) = BitVec.twoPow n (n - 1 - k) ∧
    clz (BitVec.twoPow n k) = n - 1 - k ∧ ctz (BitVec.twoPow n k) = k) ∧
  (∀ n k : Nat, 1 < n → k < n →
    clz (~~~ BitVec.twoPow n k) = (if k = n - 1 then 1 else 0) ∧
    ctz (~~~ BitVec.twoPow n k) = (if k = 0 then 1 else 0) ∧
    rbit (~~~ BitVec.twoPow n k) = ~~~ BitVec.twoPow n (n - 1 - k))

/-! ## The reference structures -/

/-- 40_clz.md section 4 (informative; its last sentence is the spec's derivation): the CLZ tree computes CLZ at both widths, with 5 and 6 stages; without the zero detect its stages alone give N - 1 for x = 0. -/
def Obligations.ClzTreeComputesClz : Prop :=
  (∀ x : BitVec 32, clzTree 5 x = clz x) ∧ (∀ x : BitVec 64, clzTree 6 x = clz x) ∧
  clzStages 0#32 0 (stages 5) = 31 ∧ clzStages 0#64 0 (stages 6) = 63 ∧
  stages 5 = [16, 8, 4, 2, 1] ∧ stages 6 = [32, 16, 8, 4, 2, 1]

/-- 41_ctz.md section 4 (informative; its last sentence is the spec's derivation): the CTZ mirror tree computes CTZ at both widths, with 5 and 6 stages; without the zero detect its stages alone give N - 1 for x = 0. -/
def Obligations.CtzTreeComputesCtz : Prop :=
  (∀ x : BitVec 32, ctzTree 5 x = ctz x) ∧ (∀ x : BitVec 64, ctzTree 6 x = ctz x) ∧
  ctzStages 0#32 0 (stages 5) = 31 ∧ ctzStages 0#64 0 (stages 6) = 63

/-- 41_ctz.md section 4 (the spec derives it from R80, R95, R110): CTZ is CLZ of the reversal, at 0 too; so the reversal network feeding the CLZ tree is a CTZ tree. -/
def Obligations.ReversalFeedingClzTreeIsCtz : Prop :=
  (∀ (n : Nat) (x : BitVec n), ctz x = clz (rbit x)) ∧
  (∀ x : BitVec 32, ctzByReversal 5 x = ctz x) ∧ (∀ x : BitVec 64, ctzByReversal 6 x = ctz x)

/-- R115: the loop that shifts its accumulator left computes RBIT; the other reading of the source's prose returns x unchanged. -/
def Obligations.ReversingLoopComputesRbit : Prop :=
  ∀ (n : Nat) (x : BitVec n), rbitLoop x = rbit x ∧ rejectedLoop x = x

/-- 50_laws.md section 2, for the structures the spec names: the result depends on `ctl` and `opnd` only, not on how the block is built: an evaluation whose counts come from the trees (or CTZ from the composition) and whose reversal comes from the loop completes with the very state the meaning gives. -/
def Obligations.ResultDoesNotDependOnStructure : Prop :=
  ∀ s : State,
    exec .clz32 s = evaluate 32 (fun x => packCount (clzTree 5 x)) s ∧
    exec .clz64 s = evaluate 64 (fun x => packCount (clzTree 6 x)) s ∧
    exec .ctz32 s = evaluate 32 (fun x => packCount (ctzTree 5 x)) s ∧
    exec .ctz64 s = evaluate 64 (fun x => packCount (ctzTree 6 x)) s ∧
    exec .ctz32 s = evaluate 32 (fun x => packCount (ctzByReversal 5 x)) s ∧
    exec .ctz64 s = evaluate 64 (fun x => packCount (ctzByReversal 6 x)) s ∧
    exec .rbit32 s = evaluate 32 (fun x => packValue (rbitLoop x)) s ∧
    exec .rbit64 s = evaluate 64 (fun x => packValue (rbitLoop x)) s
end

