-- ==== Sys2Proof/Laws/Bits.lean ====
section
/-!
SUPPORT. What the searches and the loop behind CLZ, CTZ and RBIT find, and that the rules' descriptions of a count or a reversal fix it.
-/

namespace Sys2Proof.Machine

variable {n : Nat}

/-- Where a bit below `k` is set, `msbBelow` finds the highest. -/
theorem msbBelow_spec (x : BitVec n) {k : Nat} (h : ∃ i, i < k ∧ x.getLsbD i = true) :
    msbBelow x k < k ∧ x.getLsbD (msbBelow x k) = true ∧
      ∀ j, msbBelow x k < j → j < k → x.getLsbD j = false := by
  induction k with
  | zero => simp at h
  | succ k ih =>
    unfold msbBelow
    by_cases hk : x.getLsbD k = true
    · rw [if_pos hk]
      exact ⟨by omega, hk, fun j _ _ => by omega⟩
    · rw [if_neg hk]
      have hk' : x.getLsbD k = false := by simpa using hk
      obtain ⟨i, hi, hx⟩ := h
      have hik : i < k := by
        rcases Nat.lt_or_ge i k with h' | h'
        · exact h'
        · rw [show i = k by omega, hk'] at hx; cases hx
      obtain ⟨a, b, c⟩ := ih ⟨i, hik, hx⟩
      refine ⟨by omega, b, fun j h1 h2 => ?_⟩
      rcases Nat.lt_or_ge j k with h' | h'
      · exact c j h1 h'
      · rw [show j = k by omega, hk']

/-- `lsbFrom` skips only clear bits, and stops at a set bit or at the end of its search. -/
theorem lsbFrom_spec (x : BitVec n) (i k : Nat) :
    i ≤ lsbFrom x i k ∧ lsbFrom x i k ≤ i + k ∧ (∀ j, i ≤ j → j < lsbFrom x i k → x.getLsbD j = false) ∧
      (lsbFrom x i k < i + k → x.getLsbD (lsbFrom x i k) = true) := by
  induction k generalizing i with
  | zero =>
    unfold lsbFrom
    exact ⟨by omega, by omega, fun j _ _ => by omega, fun h => by omega⟩
  | succ k ih =>
    unfold lsbFrom
    by_cases hi : x.getLsbD i = true
    · rw [if_pos hi]
      exact ⟨by omega, by omega, fun j _ _ => by omega, fun _ => hi⟩
    · rw [if_neg hi]
      obtain ⟨a, b, c, d⟩ := ih (i + 1)
      refine ⟨by omega, by omega, fun j h1 h2 => ?_, fun h => d (by omega)⟩
      rcases Nat.lt_or_ge i j with h' | h'
      · exact c j h' h2
      · rw [show j = i by omega]; simpa using hi

/-- The bits of the value after `k` rounds of the reversal. -/
theorem rbitBelow_getLsbD (x : BitVec n) {k : Nat} (hk : k ≤ n) (i : Nat) :
    (rbitBelow x k).getLsbD i = (decide (i < k) && x.getLsbD (n - 1 - i)) := by
  induction k with
  | zero => simp [rbitBelow]
  | succ k ih =>
    have ih := ih (by omega)
    unfold rbitBelow
    by_cases hx : x.getLsbD (n - 1 - k) = true
    · rw [if_pos hx, BitVec.getLsbD_or, ih, BitVec.getLsbD_twoPow]
      rcases Nat.lt_trichotomy i k with h | h | h
      · have h1 : i < k + 1 := by omega
        have h2 : ¬ (k = i) := by omega
        simp [h, h1, h2]
      · subst h
        have h3 : i < n := by omega
        simp [h3, hx]
      · have h1 : ¬ (i < k) := by omega
        have h2 : ¬ (i < k + 1) := by omega
        have h3 : ¬ (k = i) := by omega
        simp [h1, h2, h3]
    · rw [if_neg hx, ih]
      have hx : x.getLsbD (n - 1 - k) = false := by simpa using hx
      rcases Nat.lt_trichotomy i k with h | h | h
      · have h1 : i < k + 1 := by omega
        simp [h, h1]
      · subst h
        simp [hx]
      · have h1 : ¬ (i < k) := by omega
        have h2 : ¬ (i < k + 1) := by omega
        simp [h1, h2]

/-- A nonzero value has a set bit. -/
theorem exists_set_bit {x : BitVec n} (h : x ≠ 0#n) : ∃ i, i < n ∧ x.getLsbD i = true := by
  by_contra hc
  apply h
  apply BitVec.eq_of_getLsbD_eq
  intro i hi
  simp only [not_exists, not_and] at hc
  simpa using hc i hi

/-- R80's description fixes the count. -/
theorem leadingZeros_unique {x : BitVec n} {c d : Nat} (hc : LeadingZeros x c) (hd : LeadingZeros x d) : c = d := by
  obtain ⟨c1, c2, c3⟩ := hc
  obtain ⟨d1, d2, d3⟩ := hd
  rcases Nat.lt_trichotomy c d with h | h | h
  · have e := d2 (n - 1 - c) (by omega) (by omega)
    rw [c3 (by omega)] at e; cases e
  · exact h
  · have e := c2 (n - 1 - d) (by omega) (by omega)
    rw [d3 (by omega)] at e; cases e

/-- R95's description fixes the count. -/
theorem trailingZeros_unique {x : BitVec n} {c d : Nat} (hc : TrailingZeros x c) (hd : TrailingZeros x d) : c = d := by
  obtain ⟨c1, c2, c3⟩ := hc
  obtain ⟨d1, d2, d3⟩ := hd
  rcases Nat.lt_trichotomy c d with h | h | h
  · have e := d2 c h
    rw [c3 (by omega)] at e; cases e
  · exact h
  · have e := c2 d h
    rw [d3 (by omega)] at e; cases e

/-- R110's description fixes the value. -/
theorem reversed_unique {x r q : BitVec n} (hr : Reversed x r) (hq : Reversed x q) : r = q :=
  BitVec.eq_of_getLsbD_eq fun i hi => by rw [hr i hi, hq i hi]

end Sys2Proof.Machine
end

