-- ==== Sys2Proof/Laws/State.lean ====
section
/-!
SUPPORT. One lemma per field per update of the state, so that no later proof unfolds a record update.
-/

namespace Sys2Proof.Machine

@[simp] theorem InputPort.drive_value {w : Nat} (v : BitVec w) : (InputPort.drive v).value = v := rfl
@[simp] theorem InputPort.drive_driven {w : Nat} (v : BitVec w) : (InputPort.drive v).driven = BitVec.allOnes w := rfl
@[simp] theorem InputPort.floating_driven (w : Nat) : (InputPort.floating w).driven = 0#w := rfl

namespace State

@[simp] theorem driveRes_ctl (s : State) (v : Word) : (s.driveRes v).ctl = s.ctl := rfl
@[simp] theorem driveRes_opnd (s : State) (v : Word) : (s.driveRes v).opnd = s.opnd := rfl
@[simp] theorem driveRes_powered (s : State) (v : Word) : (s.driveRes v).powered = s.powered := rfl
@[simp] theorem driveRes_stability (s : State) (v : Word) : (s.driveRes v).stability = s.stability := rfl
@[simp] theorem driveRes_res (s : State) (v : Word) : (s.driveRes v).res = some v := rfl

@[simp] theorem hold_ctl (s : State) (t : Nat) : (s.hold t).ctl = s.ctl := rfl
@[simp] theorem hold_opnd (s : State) (t : Nat) : (s.hold t).opnd = s.opnd := rfl
@[simp] theorem hold_powered (s : State) (t : Nat) : (s.hold t).powered = s.powered := rfl
@[simp] theorem hold_stability (s : State) (t : Nat) : (s.hold t).stability = s.stability.after t := rfl
@[simp] theorem hold_res (s : State) (t : Nat) : (s.hold t).res = s.res := rfl

@[simp] theorem powerOn_ctl (s : State) : s.powerOn.ctl = s.ctl := rfl
@[simp] theorem powerOn_opnd (s : State) : s.powerOn.opnd = s.opnd := rfl
@[simp] theorem powerOn_powered (s : State) : s.powerOn.powered = true := rfl
@[simp] theorem powerOn_stability (s : State) : s.powerOn.stability = s.stability := rfl
@[simp] theorem powerOn_res (s : State) : s.powerOn.res = s.res := rfl

@[simp] theorem powerOff_ctl (s : State) : s.powerOff.ctl = s.ctl := rfl
@[simp] theorem powerOff_opnd (s : State) : s.powerOff.opnd = s.opnd := rfl
@[simp] theorem powerOff_powered (s : State) : s.powerOff.powered = false := rfl
@[simp] theorem powerOff_stability (s : State) : s.powerOff.stability = s.stability := rfl
@[simp] theorem powerOff_res (s : State) : s.powerOff.res = none := rfl

@[simp] theorem sameLevels_refl {w : Nat} (p : InputPort w) : p.sameLevels p = true := by
  simp [InputPort.sameLevels]

/-- Presenting what is at the same levels changes no more than the levels recorded for undriven wires. -/
theorem present_unchanged {s : State} {c : InputPort 3} {x : InputPort 64}
    (hc : s.ctl.sameLevels c = true) (hx : s.opnd.sameLevels x = true) :
    s.present c x = { s with ctl := c, opnd := x } := if_pos (by rw [hc, hx]; rfl)

/-- Presenting anything else restarts the settling time and ends the observation. -/
theorem present_changed {s : State} {c : InputPort 3} {x : InputPort 64}
    (h : ¬ (s.ctl.sameLevels c = true ∧ s.opnd.sameLevels x = true)) :
    s.present c x = { s with ctl := c, opnd := x, stability := .pending 0, res := none } :=
  if_neg (by rwa [Bool.and_eq_true])

/-- Presenting the ports as they are changes nothing. -/
theorem present_same (s : State) : s.present s.ctl s.opnd = s :=
  present_unchanged (sameLevels_refl _) (sameLevels_refl _)

@[simp] theorem present_ctl (s : State) (c : InputPort 3) (x : InputPort 64) : (s.present c x).ctl = c := by
  unfold present; split <;> rfl

@[simp] theorem present_opnd (s : State) (c : InputPort 3) (x : InputPort 64) : (s.present c x).opnd = x := by
  unfold present; split <;> rfl

@[simp] theorem present_powered (s : State) (c : InputPort 3) (x : InputPort 64) :
    (s.present c x).powered = s.powered := by
  unfold present; split <;> rfl

@[simp] theorem withFetchWord_opnd (s : State) (nbits w : Nat) : (s.withFetchWord nbits w).opnd = s.opnd := rfl
@[simp] theorem withFetchWord_powered (s : State) (nbits w : Nat) : (s.withFetchWord nbits w).powered = true := rfl
@[simp] theorem withFetchWord_stability (s : State) (nbits w : Nat) : (s.withFetchWord nbits w).stability = .settled := rfl
@[simp] theorem withFetchWord_res (s : State) (nbits w : Nat) : (s.withFetchWord nbits w).res = none := rfl

end State

@[simp] theorem Stability.settled_after (t : Nat) : Stability.settled.after t = .settled := rfl

/-- Inputs held for `T_PD` are settled, however long they were stable before. -/
theorem Stability.after_tPD {t : Nat} (h : Config.tPD ≤ t) (p : Stability) : p.after t = .settled := by
  cases p with
  | settled => rfl
  | pending heldFor => exact if_pos (Nat.le_trans h (Nat.le_add_left t heldFor))

/-- `T_PD` is at least one unit of time, so a sample taken at once is early. -/
theorem tPD_pos : 0 < Config.tPD := Nat.succ_pos _

end Sys2Proof.Machine
end

