-- ==== Sys2Proof/Laws/Operands.lean ====
section
/-!
SUPPORT. What reading an operand and packing a result can do.
-/

namespace Sys2Proof.Machine

/-- A low slice of ones is the same as each of its bits being one. -/
theorem extractLsb'_zero_eq_allOnes_iff {w : Nat} (d : BitVec w) (n : Nat) :
    d.extractLsb' 0 n = BitVec.allOnes n ↔ ∀ k, k < n → d.getLsbD k = true := by
  constructor
  · intro h k hk
    have := congrArg (fun b => b.getLsbD k) h
    simpa [hk] using this
  · intro h
    apply BitVec.eq_of_getLsbD_eq
    intro k hk
    simp [hk, h k hk]

/-- Reading the low `n` bits of a port answers them exactly when each of them is driven. -/
theorem readLow_eq_some_iff {w n : Nat} (p : InputPort w) (x : BitVec n) :
    p.readLow n = some x ↔ (∀ k, k < n → p.driven.getLsbD k = true) ∧ x = p.value.extractLsb' 0 n := by
  rw [← extractLsb'_zero_eq_allOnes_iff]
  unfold InputPort.readLow
  split <;> simp_all [eq_comm]

/-- Reading the low `n` bits of a port answers nothing exactly when one of them is not driven. -/
theorem readLow_eq_none_iff {w n : Nat} (p : InputPort w) :
    p.readLow n = none ↔ ∃ k, k < n ∧ p.driven.getLsbD k = false := by
  have h := extractLsb'_zero_eq_allOnes_iff p.driven n
  unfold InputPort.readLow
  split <;> simp_all

/-- `sameLevels` is agreement on each wire. -/
theorem sameLevels_iff_agree {w : Nat} (p q : InputPort w) : p.sameLevels q = true ↔ AgreeBelow w p q := by
  unfold InputPort.sameLevels AgreeBelow
  rw [Bool.and_eq_true, beq_iff_eq, beq_iff_eq]
  constructor
  · rintro ⟨hd, hv⟩ k -
    refine ⟨by rw [hd], fun h => ?_⟩
    have e := congrArg (fun b => b.getLsbD k) hv
    simpa [BitVec.getLsbD_and, h, hd ▸ h] using e
  · intro h
    refine ⟨BitVec.eq_of_getLsbD_eq fun k hk => (h k hk).1, BitVec.eq_of_getLsbD_eq fun k hk => ?_⟩
    rw [BitVec.getLsbD_and, BitVec.getLsbD_and, ← (h k hk).1]
    cases hd : p.driven.getLsbD k
    · simp
    · rw [(h k hk).2 hd]

/-- Ports that agree on their low `n` wires read alike there. -/
theorem readLow_eq_of_agree {w n : Nat} {p q : InputPort w} (h : AgreeBelow n p q) : p.readLow n = q.readLow n := by
  cases hq : q.readLow n with
  | none =>
    obtain ⟨k, hk, hd⟩ := (readLow_eq_none_iff q).1 hq
    exact (readLow_eq_none_iff p).2 ⟨k, hk, (h k hk).1.trans hd⟩
  | some x =>
    obtain ⟨hd, rfl⟩ := (readLow_eq_some_iff q x).1 hq
    have hp : ∀ k, k < n → p.driven.getLsbD k = true := fun k hk => (h k hk).1.trans (hd k hk)
    refine (readLow_eq_some_iff p _).2 ⟨hp, BitVec.eq_of_getLsbD_eq fun k hk => ?_⟩
    simp [hk, (h k hk).2 (hp k hk)]

/-- A count that fits in the 7 bits of the largest one keeps its value on `res`. -/
theorem packCount_toNat {c : Nat} (h : c ≤ 64) : (packCount c).toNat = c :=
  Nat.mod_eq_of_lt (by omega)

/-- The bits of a reversed value stand in the low bits of `res`, with zeros above. -/
theorem packValue_getLsbD {n : Nat} (r : BitVec n) (k : Nat) :
    (packValue r).getLsbD k = (decide (k < 64) && r.getLsbD k) := BitVec.getLsbD_setWidth ..

/-- A value of the port's full width is on `res` as it is. -/
theorem packValue_word (r : Word) : packValue r = r := BitVec.setWidth_eq r

end Sys2Proof.Machine
end

