-- ==== Sys2Proof/Laws/Ops.lean ====
section
/-!
SUPPORT. What the shared operations, a meaning and a step can do, each said once.
-/

namespace Sys2Proof.Machine

/-- Everything a completed evaluation did: its conditions held, and it drove the function of the operand on `res`. -/
theorem evaluate_next_iff {n : Nat} {f : BitVec n → Word} {s t : State} :
    evaluate n f s = .next t ↔
      Settled s ∧ (∀ k, k < n → s.opnd.driven.getLsbD k = true) ∧ t = s.driveRes (f (s.opnd.value.extractLsb' 0 n)) := by
  unfold evaluate Settled
  cases hp : s.powered
  · simp
  cases hs : s.stability with
  | pending h => simp
  | settled =>
    cases hr : s.opnd.readLow n with
    | none =>
      obtain ⟨k, hk, hd⟩ := (readLow_eq_none_iff s.opnd).1 hr
      simp only [if_true, reduceCtorEq, false_iff]
      rintro ⟨-, h, -⟩
      rw [h k hk] at hd; cases hd
    | some x =>
      obtain ⟨h, rfl⟩ := (readLow_eq_some_iff s.opnd x).1 hr
      simp only [if_true, Host.Outcome.next.injEq, true_and]
      exact ⟨fun e => ⟨h, e.symm⟩, fun e => e.2.symm⟩

/-- An evaluation that does not complete is refused: it never faults. -/
theorem evaluate_next_or_refused (n : Nat) (f : BitVec n → Word) (s : State) :
    (∃ t, evaluate n f s = .next t) ∨ ∃ r, evaluate n f s = .refused r := by
  unfold evaluate
  split
  · split
    · exact .inr ⟨_, rfl⟩
    · split
      · exact .inr ⟨_, rfl⟩
      · exact .inl ⟨_, rfl⟩
  · exact .inr ⟨_, rfl⟩

/-- What one operation drives on `res` for the value `x` on `opnd`. -/
def resultOf (i : Instr) (x : Word) : Word :=
  match i with
  | .clz32 => packCount (clz (x.extractLsb' 0 32))
  | .clz64 => packCount (clz x)
  | .ctz32 => packCount (ctz (x.extractLsb' 0 32))
  | .ctz64 => packCount (ctz x)
  | .rbit32 => packValue (rbit (x.extractLsb' 0 32))
  | .rbit64 => packValue (rbit x)

/-- Everything a meaning can do when it completes. -/
theorem exec_next_iff {i : Instr} {s t : State} :
    exec i s = .next t ↔ Ready i s ∧ t = s.driveRes (resultOf i s.opnd.value) := by
  have hx : s.opnd.value.extractLsb' 0 64 = s.opnd.value := by
    apply BitVec.eq_of_getLsbD_eq
    intro k hk
    simp [hk]
  cases i with
  | clz32 => exact evaluate_next_iff.trans and_assoc.symm
  | ctz32 => exact evaluate_next_iff.trans and_assoc.symm
  | rbit32 => exact evaluate_next_iff.trans and_assoc.symm
  | clz64 => exact evaluate_next_iff.trans (by rw [hx]; exact and_assoc.symm)
  | ctz64 => exact evaluate_next_iff.trans (by rw [hx]; exact and_assoc.symm)
  | rbit64 => exact evaluate_next_iff.trans (by rw [hx]; exact and_assoc.symm)

/-- A meaning that does not complete is refused. -/
theorem exec_next_or_refused (i : Instr) (s : State) :
    (∃ t, exec i s = .next t) ∨ ∃ r, exec i s = .refused r := by
  cases i <;> exact evaluate_next_or_refused ..

/-- `fetch` answers an operation exactly when `ctl` is driven and selects it. -/
theorem fetch_ok_iff {s : State} {i : Instr} :
    fetch s = .ok i ↔ SelectDriven s ∧ decodeSelect s.ctl.value = .ok i := by
  have hx : s.ctl.value.extractLsb' 0 3 = s.ctl.value := by
    apply BitVec.eq_of_getLsbD_eq
    intro k hk
    simp [hk]
  unfold fetch SelectDriven
  cases hr : s.ctl.readLow 3 with
  | none =>
    obtain ⟨k, hk, hd⟩ := (readLow_eq_none_iff s.ctl).1 hr
    simp only [reduceCtorEq, false_iff]
    rintro ⟨h, -⟩
    rw [h k hk] at hd; cases hd
  | some c =>
    obtain ⟨h, rfl⟩ := (readLow_eq_some_iff s.ctl c).1 hr
    simp only [hx]
    split
    · next j hd => simp only [hd, Except.ok.injEq]; exact ⟨fun e => ⟨h, e⟩, fun e => e.2⟩
    · next e hd => simp [hd]

/-- A step of a state whose `ctl` selects an operation is that operation's meaning. -/
theorem step_eq_exec {s : State} {i : Instr} (h : fetch s = .ok i) : step s = exec i s := by
  unfold step
  rw [h]

/-- Everything a step can do when it completes. -/
theorem step_next_iff {s t : State} :
    step s = .next t ↔ ∃ i, Presents i s ∧ t = s.driveRes (resultOf i s.opnd.value) := by
  unfold step Presents
  cases hf : fetch s with
  | ok i =>
    obtain ⟨h, hd⟩ := fetch_ok_iff.1 hf
    simp only [exec_next_iff, hd, Except.ok.injEq]
    constructor
    · rintro ⟨hr, rfl⟩
      exact ⟨i, ⟨h, rfl, hr⟩, rfl⟩
    · rintro ⟨j, ⟨-, rfl, hr⟩, rfl⟩
      exact ⟨hr, rfl⟩
  | error e =>
    simp only [reduceCtorEq, false_iff]
    rintro ⟨i, ⟨h, hd, -⟩, -⟩
    simp [fetch_ok_iff.2 ⟨h, hd⟩] at hf

/-- A step that does not complete is refused. -/
theorem step_next_or_refused (s : State) : (∃ t, step s = .next t) ∨ ∃ r, step s = .refused r := by
  unfold step
  split
  · exact exec_next_or_refused ..
  · exact .inr ⟨_, rfl⟩

end Sys2Proof.Machine
end

