-- ==== Sys2Proof/Laws/PerInstr.lean ====
section
/-!
SUPPORT. Statements about every operation as syntax, one lemma per constructor.
-/

/-- The byte that carries an operation's select word passes both checks of WellFormed. -/
def Sys2Proof.Laws.EncodedByteWf.Statement (i : Sys2Proof.Instr) : Prop :=
  i.wf = true ∧ Sys2Proof.byteWf ((Sys2Proof.encode i).setWidth 8) = true

theorem Sys2Proof.Laws.EncodedByteWf.clz32 : Sys2Proof.Laws.EncodedByteWf.Statement .clz32 := ⟨rfl, rfl⟩
theorem Sys2Proof.Laws.EncodedByteWf.clz64 : Sys2Proof.Laws.EncodedByteWf.Statement .clz64 := ⟨rfl, rfl⟩
theorem Sys2Proof.Laws.EncodedByteWf.ctz32 : Sys2Proof.Laws.EncodedByteWf.Statement .ctz32 := ⟨rfl, rfl⟩
theorem Sys2Proof.Laws.EncodedByteWf.ctz64 : Sys2Proof.Laws.EncodedByteWf.Statement .ctz64 := ⟨rfl, rfl⟩
theorem Sys2Proof.Laws.EncodedByteWf.rbit32 : Sys2Proof.Laws.EncodedByteWf.Statement .rbit32 := ⟨rfl, rfl⟩
theorem Sys2Proof.Laws.EncodedByteWf.rbit64 : Sys2Proof.Laws.EncodedByteWf.Statement .rbit64 := ⟨rfl, rfl⟩
end

