-- ==== Sys2Proof/Tests/Slice0.lean ====
section
/-!
SUPPORT. The model's own tests. Expected values are the spec's: the worked examples of the instruction rules, the opcode map (30_encoding.md R67), and the vectors of 95_test_vectors.md. After them, one witness for the hypotheses of each statement.
-/

namespace Sys2Proof.Tests

open Sys2Proof.Machine

/-- The driver presents the select word `w` and the operand `x`, and everything is settled. -/
def presented (w x : Nat) : State := { State.reset.withFetchWord 8 w with opnd := .drive (BitVec.ofNat 64 x) }

/-- The same with only the bits of `mask` driven on `opnd`. -/
def partly (w x mask : Nat) : State :=
  { State.reset.withFetchWord 8 w with opnd := ⟨BitVec.ofNat 64 x, BitVec.ofNat 64 mask⟩ }

/-- What a step leaves on record for `res`. -/
def resAfter : Host.Outcome State Fault Refusal → Option Word
  | .next t => t.res
  | _ => none

/-- Why an outcome was refused. -/
def refusalOf : Host.Outcome State Fault Refusal → Option Refusal
  | .refused r => some r
  | _ => none

/-! ## WellFormed: each check refuses an ill-formed term -/

theorem test_holdsSelect_refuses_bit_3 : holdsSelect 0x08#8 = false := by decide
theorem test_notReserved_refuses_110 : notReserved 0b110#3 = false := by decide
theorem test_notReserved_refuses_111 : notReserved 0b111#3 = false := by decide
theorem test_byteWf_refuses_both : byteWf 0x81#8 = false ∧ byteWf 0x06#8 = false ∧ byteWf 0x05#8 = true := by decide

/-! ## Decode: the words of the opcode map, written out bit by bit (R67) -/

theorem test_decode_clz32 : decodeSelect 0b000#3 = .ok .clz32 := by decide
theorem test_decode_clz64 : decodeSelect 0b001#3 = .ok .clz64 := by decide
theorem test_decode_ctz32 : decodeSelect 0b010#3 = .ok .ctz32 := by decide
theorem test_decode_ctz64 : decodeSelect 0b011#3 = .ok .ctz64 := by decide
theorem test_decode_rbit32 : decodeSelect 0b100#3 = .ok .rbit32 := by decide
theorem test_decode_rbit64 : decodeSelect 0b101#3 = .ok .rbit64 := by decide
theorem test_decode_reserved : decodeSelect 0b110#3 = .error .reservedOpsel ∧ decodeSelect 0b111#3 = .error .reservedOpsel := by decide
theorem test_encode_rbit64 : encode .rbit64 = 0b101#3 ∧ encode .ctz32 = 0b010#3 := by decide
theorem test_decodeBytes_rejects : decodeBytes [] = .error .noByte ∧ decodeBytes [0x0D#8] = .error .notThreeBits := by decide
theorem test_decodeTableWord_rejects : decodeTableWord 8 6 = none ∧ decodeTableWord 8 8 = none ∧ decodeTableWord 8 5 = some .rbit64 := by decide

/-! ## One step each, at most two per operation (95_test_vectors.md section 3; R81, R82, R96, R97, R111, R112) -/

theorem test_clz32_ignores_high_half : resAfter (step (presented 0b000 0xDEADBEEF00000001)) = some 31#64 := by decide
theorem test_clz32_zero : resAfter (step (presented 0b000 0xFFFFFFFF00000000)) = some 32#64 := by decide
theorem test_clz64_inner : resAfter (step (presented 0b001 0x0000000000010000)) = some 47#64 := by decide
theorem test_clz64_zero : resAfter (step (presented 0b001 0)) = some 64#64 := by decide
theorem test_ctz32_high_half_is_no_trailing_bit : resAfter (step (presented 0b010 0xFFFFFFFF00000000)) = some 32#64 := by decide
theorem test_ctz32_inner : resAfter (step (presented 0b010 0x00000000FFFF0000)) = some 16#64 := by decide
theorem test_ctz64_inner : resAfter (step (presented 0b011 0x0000000000000A00)) = some 9#64 := by decide
theorem test_ctz64_top : resAfter (step (presented 0b011 0x8000000000000000)) = some 63#64 := by decide
theorem test_rbit32_clears_high_half : resAfter (step (presented 0b100 0xCAFEBABE12345678)) = some 0x000000001E6A2C48#64 := by decide
theorem test_rbit32_one : resAfter (step (presented 0b100 1)) = some 0x0000000080000000#64 := by decide
theorem test_rbit64_inner : resAfter (step (presented 0b101 0x123456789ABCDEF0)) = some 0x0F7B3D591E6A2C48#64 := by decide
theorem test_rbit64_palindrome : resAfter (step (presented 0b101 0x8000000000000001)) = some 0x8000000000000001#64 := by decide

/-- 95_test_vectors.md section 5.1: the refusals, and beside the third the nearest accepted input. -/
theorem test_refusals :
    refusalOf (step (presented 0b110 0)) = some .reservedOpsel ∧
    refusalOf (step (presented 0b111 0)) = some .reservedOpsel ∧
    refusalOf (step (partly 0b000 1 0x7FFFFFFF)) = some .inputNotDriven ∧
    resAfter (step (partly 0b000 1 0xFFFFFFFF)) = some 0x1F#64 := by decide

/-- A sample taken at once after a change is refused (R163), and so is one without a stable supply (R161). -/
theorem test_unsettled_refused :
    refusalOf (step (State.reset.present (.drive 0b001#3) (.drive 0#64))) = some .notSettled ∧
    refusalOf (step (presented 0b001 0).powerOff) = some .supplyNotStable := by decide

/-- Presenting the same driven levels again, with another level recorded for undriven wires, keeps the observation (log entry 13); driving one of those wires does not. -/
theorem test_present_compares_driven_wires :
    ((partly 0 1 0xFFFFFFFF).driveRes 31#64).present (.drive 0#3) (partly 0 0x700000001 0xFFFFFFFF).opnd =
      (partly 0 0x700000001 0xFFFFFFFF).driveRes 31#64 ∧
    (((partly 0 1 0xFFFFFFFF).driveRes 31#64).present (.drive 0#3) (partly 0 1 0x1FFFFFFFF).opnd).res = none := by decide

/-- 95_test_vectors.md section 2.3: the first stage of the tree that is taken, and the count. -/
theorem test_clzTree_trace : clzStages 0x12345678#32 0 (stages 5) = 3 ∧ clzStages 0#32 0 (stages 5) = 31 := by decide

/-! ## Witnesses: each statement's hypotheses hold together somewhere -/

/-- OpcodeMapWordsDecode, DecodeAndEncodeAgree, HoldingTimesAddUp, the laws without hypotheses: none needed. SelectFieldsChooseFunctionAndWidth: each clause at a select word. -/
theorem witness_SelectFieldsChooseFunctionAndWidth :
    (0b000#3).extractLsb' 1 2 = 0b00#2 ∧ (0b011#3).extractLsb' 1 2 = 0b01#2 ∧ (0b101#3).extractLsb' 1 2 = 0b10#2 ∧
    (0b111#3).extractLsb' 1 2 = 0b11#2 ∧ (decodeSelect 0b100#3 = .ok .rbit32 ∧ (0b100#3).extractLsb' 0 1 = 0#1) ∧
    (decodeSelect 0b101#3 = .ok .rbit64 ∧ (0b101#3).extractLsb' 0 1 = 1#1) := by decide

theorem witness_DecodeAndEncodeAgree :
    decodeSelect 0b101#3 = .ok .rbit64 ∧ decodeBytes [0x05#8, 0xFF#8] = .ok (.rbit64, [0xFF#8]) := by decide

theorem witness_DecodeIsTotalAndEveryOperandAccepted :
    Settled State.reset ∧ (0b000#3).toNat < 6 ∧ (0b101#3).toNat < 6 := by decide

/-- StepRunsTheSelectedOperation, and the driver's duties for each operation. -/
theorem witness_StepRunsTheSelectedOperation :
    Presents .clz32 (presented 0b000 1) ∧ Presents .clz64 (presented 0b001 1) ∧ Presents .ctz32 (presented 0b010 1) ∧
    Presents .ctz64 (presented 0b011 1) ∧ Presents .rbit32 (presented 0b100 1) ∧ Presents .rbit64 (presented 0b101 1) := by decide

theorem witness_PresentedTableWordRuns : decodeTableWord 8 0 = some .clz32 ∧ decodeTableWord 8 5 = some .rbit64 := by decide

/-- StepIsEvalOfTheInputs: a state where `Eval` has a value and one where it refuses. -/
theorem witness_StepIsEvalOfTheInputs :
    (Presents .ctz64 (presented 0b011 0xA00) ∧ eval 0b011#3 0xA00#64 = .ok 9#64) ∧
    (SelectDriven (presented 0b110 0) ∧ Settled (presented 0b110 0) ∧ decodeSelect 0b110#3 = .error .reservedOpsel ∧
      eval 0b110#3 0#64 = .error .reservedOpsel) := by decide

/-- StepCompletesExactlyWhenDutiesMet: both sides occur. -/
theorem witness_StepCompletesExactlyWhenDutiesMet :
    (resAfter (step (presented 0b001 1))).isSome = true ∧ (refusalOf (step State.powerUp)).isSome = true := by decide

/-- Clz32CountsLeadingZeros: its hypothesis with each clause's premise. -/
theorem witness_Clz32CountsLeadingZeros :
    Ready .clz32 (presented 0 0x00000001FFFFFFFF) ∧ (presented 0 0x80000000).opnd.value.getLsbD 31 = true ∧
    Ready .clz32 (presented 0 0x80000000) ∧ Ready .clz32 (presented 0 0xFFFFFFFF00000000) ∧
    (presented 0 0xFFFFFFFF00000000).opnd.value.extractLsb' 0 32 = 0#32 ∧ Ready .clz32 (presented 0 0x12345678) := by decide

theorem witness_Clz64CountsLeadingZeros :
    Ready .clz64 (presented 1 0) ∧ Ready .clz64 (presented 1 1) ∧ Ready .clz64 (presented 1 0x8000000000000000) ∧
    (presented 1 0x8000000000000000).opnd.value.getLsbD 63 = true := by decide

theorem witness_Ctz32CountsTrailingZeros :
    Ready .ctz32 (presented 2 0xFFFFFFFF00000000) ∧ (presented 2 0xFFFFFFFF00000000).opnd.value.extractLsb' 0 32 = 0#32 ∧
    Ready .ctz32 (presented 2 1) ∧ (presented 2 1).opnd.value.getLsbD 0 = true ∧
    Ready .ctz32 (presented 2 0x180000000) ∧ (presented 2 0x180000000).opnd.value.extractLsb' 0 32 = 0x80000000#32 := by decide

theorem witness_Ctz64CountsTrailingZeros :
    Ready .ctz64 (presented 3 0) ∧ Ready .ctz64 (presented 3 1) ∧ (presented 3 1).opnd.value.getLsbD 0 = true ∧
    Ready .ctz64 (presented 3 0x8000000000000000) := by decide

theorem witness_Rbit32ReversesLowHalf :
    Ready .rbit32 (presented 4 0xFFFFFFFF00000000) ∧ (presented 4 0xFFFFFFFF00000000).opnd.value.extractLsb' 0 32 = 0#32 ∧
    Ready .rbit32 (presented 4 0xFFFFFFFF) ∧ (presented 4 0xFFFFFFFF).opnd.value.extractLsb' 0 32 = 0xFFFFFFFF#32 ∧
    Ready .rbit32 (presented 4 1) := by decide

theorem witness_Rbit64ReversesOperand :
    Ready .rbit64 (presented 5 0) ∧ Ready .rbit64 (presented 5 0xFFFFFFFFFFFFFFFF) ∧ Ready .rbit64 (presented 5 1) ∧
    Ready .rbit64 (presented 5 0x8000000000000001) ∧
    (∀ i, i < 64 → (presented 5 0x8000000000000001).opnd.value.getLsbD i =
      (presented 5 0x8000000000000001).opnd.value.getLsbD (63 - i)) := by decide

/-- ZeroOperandCountsTheWidth: each of its four clauses at a zero operand. -/
theorem witness_ZeroOperandCountsTheWidth :
    (Ready .clz32 (presented 0 0xFFFFFFFF00000000) ∧ (presented 0 0xFFFFFFFF00000000).opnd.value.extractLsb' 0 32 = 0#32) ∧
    (Ready .clz64 (presented 1 0) ∧ (presented 1 0).opnd.value = 0#64) ∧
    (Ready .ctz32 (presented 2 0xFFFFFFFF00000000) ∧ (presented 2 0xFFFFFFFF00000000).opnd.value.extractLsb' 0 32 = 0#32) ∧
    (Ready .ctz64 (presented 3 0) ∧ (presented 3 0).opnd.value = 0#64) := by decide

/-- ResultPackingOnRes and EvaluationChangesOnlyRes: each operation completes somewhere, with a record of `res`. -/
theorem witness_ResultPackingOnRes :
    resAfter (exec .clz32 (presented 0 0)) = some 32#64 ∧ resAfter (exec .clz64 (presented 1 0)) = some 64#64 ∧
    resAfter (exec .ctz32 (presented 2 0)) = some 32#64 ∧ resAfter (exec .ctz64 (presented 3 0)) = some 64#64 ∧
    resAfter (exec .rbit32 (presented 4 0xFFFFFFFF)) = some 0xFFFFFFFF#64 ∧ resAfter (exec .rbit64 (presented 5 1)) = some 0x8000000000000000#64 := by decide

theorem witness_TopBitSetIsALargeUnsignedValue :
    (Ready .clz32 (presented 0 0x80000000) ∧ (presented 0 0x80000000).opnd.value.getLsbD 31 = true) ∧
    (Ready .clz64 (presented 1 0x8000000000000000) ∧ (presented 1 0x8000000000000000).opnd.value.getLsbD 63 = true) := by decide

theorem witness_EvaluationChangesOnlyRes :
    exec .rbit64 (presented 5 1) = .next ((presented 5 1).driveRes 0x8000000000000000#64) := rfl

/-- EqualInputsGiveEqualResults, RepeatedEvaluationIsIdempotent: two states with equal inputs and different histories, and both complete. -/
theorem witness_EqualInputsGiveEqualResults :
    (presented 3 0xA00).ctl = ((presented 3 0xA00).driveRes 77#64).ctl ∧
    (presented 3 0xA00).opnd = ((presented 3 0xA00).driveRes 77#64).opnd ∧
    presented 3 0xA00 ≠ (presented 3 0xA00).driveRes 77#64 ∧
    resAfter (step (presented 3 0xA00)) = some 9#64 ∧ resAfter (step ((presented 3 0xA00).driveRes 77#64)) = some 9#64 := by decide

theorem witness_RepeatedEvaluationIsIdempotent :
    step (presented 5 1) = .next ((presented 5 1).driveRes 0x8000000000000000#64) := rfl

/-- OperandIsTheLowNBits: two operands that differ above bit 31 in level and in what is driven; an undriven top bit; equal RBIT64 results. -/
theorem witness_OperandIsTheLowNBits :
    (∀ k, k < 32 → (presented 0 0xDEADBEEF00000001).opnd.driven.getLsbD k = (partly 0 1 0xFFFFFFFF).opnd.driven.getLsbD k ∧
      ((presented 0 0xDEADBEEF00000001).opnd.driven.getLsbD k = true →
        (presented 0 0xDEADBEEF00000001).opnd.value.getLsbD k = (partly 0 1 0xFFFFFFFF).opnd.value.getLsbD k)) ∧
    Ready .clz32 (presented 0 0xDEADBEEF00000001) ∧
    (Instr.clz64.width.bits = 64 ∧ (partly 1 1 0x7FFFFFFFFFFFFFFF).opnd.driven.getLsbD 63 = false) ∧
    Ready .rbit64 (presented 5 1) := by decide

/-- UndrivenLevelsHaveNoEffect: two states that differ in the level recorded for an undriven wire, where a step completes and where it is refused. -/
theorem witness_UndrivenLevelsHaveNoEffect :
    (partly 0 1 0xFFFFFFFF ≠ partly 0 0x100000001 0xFFFFFFFF ∧
      resAfter (step (partly 0 1 0xFFFFFFFF)) = resAfter (step (partly 0 0x100000001 0xFFFFFFFF)) ∧
      resAfter (step (partly 0 1 0xFFFFFFFF)) = some 31#64 ∧
      refusalOf (step (partly 1 1 0xFFFFFFFF)) = some .inputNotDriven) ∧
    (∀ k, k < 64 → (partly 0 1 0xFFFFFFFF).opnd.driven.getLsbD k = (partly 0 0x100000001 0xFFFFFFFF).opnd.driven.getLsbD k ∧
      ((partly 0 1 0xFFFFFFFF).opnd.driven.getLsbD k = true →
        (partly 0 1 0xFFFFFFFF).opnd.value.getLsbD k = (partly 0 0x100000001 0xFFFFFFFF).opnd.value.getLsbD k)) := by decide

/-- UndrivenLevelsHaveNoEffectOnDriverRuns: two runs that differ in the placeholder of an undriven wire, in the state and in what is presented; they complete with the same observation. -/
theorem witness_UndrivenLevelsHaveNoEffectOnDriverRuns :
    List.Forall₂ AlikeActions [.present (.drive 0#3) (partly 0 1 0xFFFFFFFF).opnd, .sample]
      [.present (.drive 0#3) (partly 0 0x900000001 0xFFFFFFFF).opnd, .sample] ∧
    Alike (partly 0 1 0xFFFFFFFF) (partly 0 0x100000001 0xFFFFFFFF) ∧
    resAfter (runDriver [.present (.drive 0#3) (partly 0 1 0xFFFFFFFF).opnd, .sample] (partly 0 1 0xFFFFFFFF)) = some 31#64 ∧
    resAfter (runDriver [.present (.drive 0#3) (partly 0 0x900000001 0xFFFFFFFF).opnd, .sample]
      (partly 0 0x100000001 0xFFFFFFFF)) = some 31#64 := by
  refine ⟨.cons ⟨?_, ?_⟩ (.cons trivial .nil), ⟨?_, ?_, rfl, rfl, rfl⟩, by decide, by decide⟩ <;>
    exact (sameLevels_iff_agree _ _).1 (by decide)

theorem witness_ReservedCodesAreRefused :
    (SelectDriven (presented 6 0) ∧ (presented 6 0).ctl.value = 0b110#3 ∧ Settled (presented 6 0) ∧
      ∀ k, k < 64 → (presented 6 0).opnd.driven.getLsbD k = true) ∧
    (SelectDriven (presented 7 0) ∧ (presented 7 0).ctl.value = 0b111#3) := by decide

/-- ThreeInputConditionsAreRefused: each of its four cases. -/
theorem witness_ThreeInputConditionsAreRefused :
    (SelectDriven (presented 7 0) ∧ decodeSelect (presented 7 0).ctl.value = .error .reservedOpsel) ∧
    (presented 8 0).ctl.driven.getLsbD 2 = false ∧
    (SelectDriven (partly 0 1 0x7FFFFFFF) ∧ decodeSelect (partly 0 1 0x7FFFFFFF).ctl.value = .ok .clz32 ∧
      31 < Instr.clz32.width.bits ∧ (partly 0 1 0x7FFFFFFF).opnd.driven.getLsbD 31 = false) ∧
    (State.reset.present (.drive 1#3) (.drive 0#64)).stability = .pending 0 := by decide

/-- UndrivenBitsRefusedExceptTheIgnoredHalf: an undriven select wire, the last bit CLZ64 reads undriven, and a 32-bit operation with its high half undriven. -/
theorem witness_UndrivenBitsRefusedExceptTheIgnoredHalf :
    (presented 8 0).ctl.driven.getLsbD 0 = false ∧
    (SelectDriven (partly 1 1 0x7FFFFFFFFFFFFFFF) ∧ decodeSelect (partly 1 1 0x7FFFFFFFFFFFFFFF).ctl.value = .ok .clz64 ∧
      63 < Instr.clz64.width.bits ∧ (partly 1 1 0x7FFFFFFFFFFFFFFF).opnd.driven.getLsbD 63 = false) ∧
    (SelectDriven (partly 0 1 0xFFFFFFFF) ∧ decodeSelect (partly 0 1 0xFFFFFFFF).ctl.value = .ok .clz32 ∧
      Settled (partly 0 1 0xFFFFFFFF) ∧ ∀ k, k < 32 → (partly 0 1 0xFFFFFFFF).opnd.driven.getLsbD k = true) := by decide

theorem witness_NoObservationBeforeSupplyAndInputsAreStable :
    ¬ Settled State.powerUp ∧ Settled (presented 3 0xA00) ∧ SelectDriven (presented 3 0xA00) ∧
    (∀ k, k < 64 → (presented 3 0xA00).opnd.driven.getLsbD k = true) ∧
    eval (presented 3 0xA00).ctl.value (presented 3 0xA00).opnd.value = .ok 9#64 := by decide

/-- NoOperationRaisesAnException, LeadingZeroCountLiesInRange: ready states. -/
theorem witness_NoOperationRaisesAnException : Ready .clz32 State.reset ∧ Ready .clz64 State.reset ∧ Ready .rbit64 State.reset := by decide

/-- EarlySampleIsRefused: a change of `ctl`, a change of `opnd`, and a time shorter than `T_PD`. -/
theorem witness_EarlySampleIsRefused :
    ¬ (AgreeBelow 3 State.reset.ctl (.drive 1#3) ∧ AgreeBelow 64 State.reset.opnd State.reset.opnd) ∧
    ¬ (AgreeBelow 3 State.reset.ctl State.reset.ctl ∧ AgreeBelow 64 State.reset.opnd (.drive 1#64)) ∧ 0 < Config.tPD := by
  simp only [← sameLevels_iff_agree]
  exact ⟨by decide, by decide, tPD_pos⟩

/-- FirstSettledSampleIsEval, ReversalThenClzIsCtzOverTwoEvaluations: `T_PD` itself is long enough, 0 is too short, and `Eval` has a value. -/
theorem witness_FirstSettledSampleIsEval : Config.tPD ≤ Config.tPD ∧ 0 < Config.tPD ∧ eval 0b000#3 1#64 = .ok 31#64 :=
  ⟨Nat.le_refl _, tPD_pos, by decide⟩

/-- StepKeepsResCurrent, EveryDriverRunKeepsResCurrent: a state that has the invariant, whose step completes. -/
theorem witness_StepKeepsResCurrent :
    ResCurrent (presented 5 1) ∧ step (presented 5 1) = .next ((presented 5 1).driveRes 0x8000000000000000#64) := by
  refine ⟨fun v h => ?_, rfl⟩
  have h : none = some v := h
  cases h

theorem witness_EveryDriverRunKeepsResCurrent :
    runDriver [.sample, .feedBack (.drive 1#3), .powerOff, .powerOn] (presented 5 1) =
      .next ((((presented 5 1).driveRes 0x8000000000000000#64).present (.drive 1#3)
        (.drive 0x8000000000000000#64)).powerOff.powerOn) := rfl

/-- The laws over nonzero values, over a single bit, and over an index in range. -/
theorem witness_laws : (1#64 ≠ 0#64) ∧ (1#32 ≠ 0#32) ∧ 63 < 64 ∧ 0 < 64 ∧ 1 < 64 := by decide

/-- RbitIsAnInvolution: its clause about the port. -/
theorem witness_RbitIsAnInvolution :
    exec .rbit32 (presented 4 1) = .next ((presented 4 1).driveRes 0x80000000#64) ∧
    exec .rbit32 { (presented 4 1).driveRes 0x80000000#64 with opnd := .drive 0x80000000#64 } =
      .next (State.driveRes { (presented 4 1).driveRes 0x80000000#64 with opnd := .drive 0x80000000#64 } 1#64) := ⟨rfl, rfl⟩

end Sys2Proof.Tests
end

/-! ## The end set bits of a value (00_scope.md R13) -/

namespace Sys2Proof.Machine

section EndSetBits

variable {n : Nat} {x : BitVec n}

theorem msb_lt (h : x ≠ 0#n) : msb x < n := by
  obtain ⟨inRange, -, -⟩ := msbBelow_spec x (exists_set_bit h)
  exact inRange

theorem getLsbD_msb (h : x ≠ 0#n) : x.getLsbD (msb x) = true := by
  obtain ⟨-, isSet, -⟩ := msbBelow_spec x (exists_set_bit h)
  exact isSet

theorem le_msb {j : Nat} (hj : x.getLsbD j = true) : j ≤ msb x := by
  have hjn : j < n := BitVec.lt_of_getLsbD hj
  obtain ⟨-, -, clearAbove⟩ := msbBelow_spec x ⟨j, hjn, hj⟩
  by_contra hlt
  exact Bool.false_ne_true ((clearAbove j (Nat.lt_of_not_le hlt) hjn).symm.trans hj)

theorem lsb_le {j : Nat} (hj : x.getLsbD j = true) : lsb x ≤ j := by
  obtain ⟨-, -, clearBelow, -⟩ := lsbFrom_spec x 0 n
  by_contra hlt
  exact Bool.false_ne_true ((clearBelow j (Nat.zero_le j) (Nat.lt_of_not_le hlt)).symm.trans hj)

theorem lsb_lt (h : x ≠ 0#n) : lsb x < n := by
  obtain ⟨i, hin, hi⟩ := exists_set_bit h
  exact Nat.lt_of_le_of_lt (lsb_le hi) hin

theorem getLsbD_lsb (h : x ≠ 0#n) : x.getLsbD (lsb x) = true := by
  obtain ⟨-, -, -, setBeforeEnd⟩ := lsbFrom_spec x 0 n
  exact setBeforeEnd (by simpa [lsb] using lsb_lt h)

end EndSetBits

/-- Settles O35: the downward search of `msb` passes only clear bits above its answer, and the upward search of `lsb` only clear bits below its answer. -/
theorem msbAndLsbFindTheEndSetBits : Obligations.MsbAndLsbFindTheEndSetBits :=
  fun _ _ hx => ⟨⟨msb_lt hx, getLsbD_msb hx, fun _ => le_msb⟩, ⟨lsb_lt hx, getLsbD_lsb hx, fun _ => lsb_le⟩⟩

end Sys2Proof.Machine


/-! ## The result is a function of the inputs (10_state.md R27) -/

namespace Sys2Proof.Machine

/-- The observation a completed step leaves depends on the levels of `ctl` and `opnd` alone (R27). -/
theorem res_eq_resultOf_of_step_next {s s' : State} (h : step s = .next s') :
    ∃ i, decodeSelect s.ctl.value = .ok i ∧ s'.res = some (resultOf i s.opnd.value) := by
  obtain ⟨i, ⟨-, selects, -⟩, rfl⟩ := step_next_iff.1 h
  exact ⟨i, selects, State.driveRes_res ..⟩

/-- Settles O19: equal levels on `ctl` select one operation, and it has one result for the level on `opnd`. -/
theorem equalInputsGiveEqualResults : Obligations.EqualInputsGiveEqualResults := by
  intro s t s' t' sameCtl sameOpnd stepS stepT
  obtain ⟨i, selectsI, resS⟩ := res_eq_resultOf_of_step_next stepS
  obtain ⟨j, selectsJ, resT⟩ := res_eq_resultOf_of_step_next stepT
  have sameInstr : i = j := Except.ok.inj (selectsI.symm.trans (sameCtl ▸ selectsJ))
  rw [resS, resT, sameInstr, sameOpnd]

end Sys2Proof.Machine


/-! ## The fields of a select word (30_encoding.md R61 to R63) -/

namespace Sys2Proof

@[simp] theorem instrOf_func (f : Func) (w : Width) : (instrOf f w).func = f := by
  cases f <;> cases w <;> rfl

@[simp] theorem instrOf_width (f : Func) (w : Width) : (instrOf f w).width = w := by
  cases f <;> cases w <;> rfl

section SelectFields

variable {c : Select} {o : BitVec 2} {f : Func} {i : Instr}

theorem funcOf_eq_some_iff : funcOf o = some f ↔ o = opselCode f := by
  cases f <;> revert o <;> decide

theorem funcOf_eq_none_iff : funcOf o = none ↔ o = 0b11#2 := by
  revert o; decide

theorem decodeSelect_of_funcOf_some (h : funcOf (opselOf c) = some f) :
    decodeSelect c = .ok (instrOf f (widthOf (wselOf c))) := by
  simp only [decodeSelect, h]

theorem decodeSelect_of_funcOf_none (h : funcOf (opselOf c) = none) :
    decodeSelect c = .error .reservedOpsel := by
  simp only [decodeSelect, h]

theorem exists_decodeSelect_ok_func (h : funcOf (opselOf c) = some f) :
    ∃ i, decodeSelect c = .ok i ∧ i.func = f :=
  ⟨_, decodeSelect_of_funcOf_some h, instrOf_func ..⟩

theorem width_eq_widthOf_of_decodeSelect (h : decodeSelect c = .ok i) : i.width = widthOf (wselOf c) := by
  cases hf : funcOf (opselOf c) with
  | none => rw [decodeSelect_of_funcOf_none hf] at h; cases h
  | some f => rw [decodeSelect_of_funcOf_some hf] at h; cases h; exact instrOf_width ..

end SelectFields

/-- Settles O1: `opsel` alone fixes the function of the decoded operation, `wsel` alone its width. -/
theorem selectFieldsChooseFunctionAndWidth : Obligations.SelectFieldsChooseFunctionAndWidth := by
  intro c
  refine ⟨fun h => exists_decodeSelect_ok_func (funcOf_eq_some_iff.2 h),
    fun h => exists_decodeSelect_ok_func (funcOf_eq_some_iff.2 h),
    fun h => exists_decodeSelect_ok_func (funcOf_eq_some_iff.2 h),
    fun h => decodeSelect_of_funcOf_none (funcOf_eq_none_iff.2 h), fun i hi => ?_⟩
  rw [width_eq_widthOf_of_decodeSelect hi, wselOf]
  exact ⟨fun h => by rw [h]; rfl, fun h => by rw [h]; rfl⟩

end Sys2Proof

/-! ## Reserved codes (30_encoding.md R68) -/

namespace Sys2Proof.Machine

theorem fetch_of_decodeSelect_error {s : State} {e : DecodeError} (hctl : SelectDriven s)
    (hdec : decodeSelect s.ctl.value = .error e) : fetch s = .error .reservedOpsel := by
  have hread : s.ctl.readLow 3 = some s.ctl.value :=
    (readLow_eq_some_iff ..).2 ⟨hctl, BitVec.extractLsb'_eq_self.symm⟩
  simp only [fetch, hread, hdec]

/-- A reserved code is refused whatever the supply, the stability and `opnd` are. -/
theorem step_of_decodeSelect_error {s : State} {e : DecodeError} (hctl : SelectDriven s)
    (hdec : decodeSelect s.ctl.value = .error e) : step s = .refused .reservedOpsel := by
  simp only [step, fetch_of_decodeSelect_error hctl hdec]

/-- Settles O23: `fetch` refuses both reserved codes before anything else of a driven `ctl` is looked at. -/
theorem reservedCodesAreRefused : Obligations.ReservedCodesAreRefused := by
  intro s hctl hcode
  have hdec : decodeSelect s.ctl.value = .error .reservedOpsel := by
    rcases hcode with h | h <;> rw [h] <;> rfl
  have hstep := step_of_decodeSelect_error hctl hdec
  refine ⟨⟨_, hstep⟩, fun t ht => ?_, fun _ _ => hstep⟩
  rw [hstep] at ht; cases ht

end Sys2Proof.Machine

/-! ## `Eval` and the decoder (30_encoding.md R67) -/

namespace Sys2Proof.Machine

section EvalDecodes

variable {c : Select} {f : Func} {i : Instr}

/-- `Eval` reads the width from `ctl[0]` as the decoder does. -/
theorem widthOf_wselOf (c : Select) : widthOf (wselOf c) = if c.getLsbD 0 then .w64 else .w32 := by
  revert c; decide

theorem eval_of_funcOf_some (h : funcOf (opselOf c) = some f) (x : Word) :
    eval c x = .ok (resultOf (instrOf f (widthOf (wselOf c))) x) := by
  have hopsel : c.extractLsb' 1 2 = opselCode f := funcOf_eq_some_iff.1 h
  rw [widthOf_wselOf, eval, hopsel]
  cases f <;> cases c.getLsbD 0 <;> rfl

theorem eval_of_funcOf_none (h : funcOf (opselOf c) = none) (x : Word) : eval c x = .error .reservedOpsel := by
  have hopsel : c.extractLsb' 1 2 = 0b11#2 := funcOf_eq_none_iff.1 h
  rw [eval, hopsel]
  rfl

/-- `Eval` has a value exactly where the decoder has an operation, and it is that operation's result. -/
theorem eval_eq_ok_iff {x v : Word} :
    eval c x = .ok v ↔ ∃ i, decodeSelect c = .ok i ∧ v = resultOf i x := by
  cases hf : funcOf (opselOf c) with
  | none => simp [eval_of_funcOf_none hf, decodeSelect_of_funcOf_none hf]
  | some f => simp [eval_of_funcOf_some hf, decodeSelect_of_funcOf_some hf, eq_comm]

/-- `Eval` refuses exactly where the decoder does, as a reserved code. -/
theorem eval_eq_error_iff {x : Word} {r : Refusal} :
    eval c x = .error r ↔ decodeSelect c = .error .reservedOpsel ∧ r = .reservedOpsel := by
  cases hf : funcOf (opselOf c) with
  | none => simp [eval_of_funcOf_none hf, decodeSelect_of_funcOf_none hf, eq_comm]
  | some f => simp [eval_of_funcOf_some hf, decodeSelect_of_funcOf_some hf]

end EvalDecodes

/-- Settles O7: where the decoder has an operation its duties are met, so the step drives `Eval`'s value; where it has none the code is reserved. -/
theorem stepIsEvalOfTheInputs : Obligations.StepIsEvalOfTheInputs := by
  intro s hctl hsettled hopnd
  refine ⟨fun v hv => ?_, fun r hr => ?_⟩
  · obtain ⟨i, hdec, rfl⟩ := eval_eq_ok_iff.1 hv
    exact step_next_iff.2 ⟨i, ⟨hctl, hdec, hsettled, hopnd i hdec⟩, rfl⟩
  · obtain ⟨hdec, rfl⟩ := eval_eq_error_iff.1 hr
    exact step_of_decodeSelect_error hctl hdec

end Sys2Proof.Machine

/-! ## Packing (30_encoding.md R65, 50_laws.md R125) -/

namespace Sys2Proof.Machine

theorem clz_le {n : Nat} (x : BitVec n) : clz x ≤ n := by
  unfold clz
  split <;> omega

theorem ctz_le {n : Nat} (x : BitVec n) : ctz x ≤ n := by
  unfold ctz
  split
  · exact Nat.le_refl n
  · next h => exact Nat.le_of_lt (lsb_lt h)

section PackCount

variable {c n : Nat}

/-- A count on `res` is exact, within the width, and the zero extension of its low 7 bits. -/
theorem packCount_exact (hc : c ≤ n) (hn : n ≤ 64) :
    packCount c = (BitVec.ofNat 7 c).setWidth 64 ∧ (packCount c).toNat = c ∧ (packCount c).toNat ≤ n := by
  have hval : (packCount c).toNat = c := packCount_toNat (Nat.le_trans hc hn)
  refine ⟨BitVec.eq_of_toNat_eq ?_, hval, hval.symm ▸ hc⟩
  rw [hval, BitVec.toNat_setWidth, BitVec.toNat_ofNat]
  omega

/-- The bits of `res` above those a count needs are zero. -/
theorem extractLsb'_packCount_eq_zero {k : Nat} (hc : c ≤ 64) (hk : c < 2 ^ k) (m : Nat) :
    (packCount c).extractLsb' k m = 0#m := by
  apply BitVec.eq_of_toNat_eq
  rw [BitVec.extractLsb'_toNat, packCount_toNat hc, Nat.shiftRight_eq_div_pow, Nat.div_eq_of_lt hk]
  rfl

end PackCount

/-- The result of each operation that counts is a packed count within its width. -/
theorem exists_resultOf_eq_packCount {i : Instr} (hi : i.func ≠ .rbit) (x : Word) :
    ∃ c, c ≤ i.width.bits ∧ resultOf i x = packCount c := by
  cases i with
  | clz32 => exact ⟨_, clz_le _, rfl⟩
  | clz64 => exact ⟨_, clz_le _, rfl⟩
  | ctz32 => exact ⟨_, ctz_le _, rfl⟩
  | ctz64 => exact ⟨_, ctz_le _, rfl⟩
  | rbit32 => exact absurd rfl hi
  | rbit64 => exact absurd rfl hi

theorem width_bits_le (i : Instr) : i.width.bits ≤ 64 := by
  cases i <;> decide

/-- A packed 32-bit value stands in `res[31:0]`, and `res[63:32]` is zero. -/
theorem packValue_halves (r : BitVec 32) :
    (packValue r).extractLsb' 0 32 = r ∧ (packValue r).extractLsb' 32 32 = 0#32 := by
  constructor <;> apply BitVec.eq_of_getLsbD_eq <;> intro k hk
  · have hk64 : k < 64 := by omega
    rw [BitVec.getLsbD_extractLsb', Nat.zero_add, packValue_getLsbD]
    simp only [hk, hk64, decide_true, Bool.true_and]
  · rw [BitVec.getLsbD_extractLsb', packValue_getLsbD, BitVec.getLsbD_of_ge r (32 + k) (Nat.le_add_right 32 k)]
    simp only [Bool.and_false, BitVec.getLsbD_zero]

/-- Settles O16: a completed operation drove `resultOf`, a packed count within the width or a packed reversal. -/
theorem resultPackingOnRes : Obligations.ResultPackingOnRes := by
  intro i s t v hexec hres
  have hv : v = resultOf i s.opnd.value := by
    obtain ⟨-, rfl⟩ := exec_next_iff.1 hexec
    exact (Option.some.inj hres).symm
  clear hexec hres
  subst hv
  refine ⟨?clz32, ?clz64, ?ctz32, ?ctz64, ?highBits, ?rbit64, ?rbit32⟩
  case clz32 => rintro rfl; exact packCount_exact (clz_le _) (by decide)
  case clz64 => rintro rfl; exact packCount_exact (clz_le _) (by decide)
  case ctz32 => rintro rfl; exact packCount_exact (ctz_le _) (by decide)
  case ctz64 => rintro rfl; exact packCount_exact (ctz_le _) (by decide)
  case highBits =>
    intro hfunc
    obtain ⟨c, hc, hcount⟩ := exists_resultOf_eq_packCount hfunc s.opnd.value
    have hc64 : c ≤ 64 := Nat.le_trans hc (width_bits_le i)
    rw [hcount]
    exact ⟨extractLsb'_packCount_eq_zero hc64 (by omega) 57,
      fun h32 => extractLsb'_packCount_eq_zero hc64 (by omega) 58⟩
  case rbit64 => rintro rfl; exact packValue_word _
  case rbit32 => rintro rfl; exact packValue_halves _

end Sys2Proof.Machine

/-! ## What an operation reads of `opnd` (30_encoding.md R64) -/

namespace Sys2Proof.Machine

section Reversal

variable {n : Nat} {x y r : BitVec n}

theorem reversed_rbit (x : BitVec n) : Reversed x (rbit x) := by
  intro i hi
  rw [rbit, rbitBelow_getLsbD x (Nat.le_refl n), decide_eq_true hi, Bool.true_and]

theorem reversed_symm (h : Reversed x r) : Reversed r x := by
  intro i hi
  rw [h (n - 1 - i) (by omega)]
  congr 1
  omega

theorem rbit_injective (h : rbit x = rbit y) : x = y :=
  reversed_unique (reversed_symm (reversed_rbit x)) (h ▸ reversed_symm (reversed_rbit y))

end Reversal

/-- Ports that agree on their low `n` wires, all of them driven, have the same low `n` bits. -/
theorem extractLsb'_value_eq_of_agree {w n : Nat} {p q : InputPort w} (h : AgreeBelow n p q)
    (hdriven : ∀ k, k < n → p.driven.getLsbD k = true) :
    p.value.extractLsb' 0 n = q.value.extractLsb' 0 n := by
  have hread : q.readLow n = some (p.value.extractLsb' 0 n) :=
    readLow_eq_of_agree h ▸ (readLow_eq_some_iff ..).2 ⟨hdriven, rfl⟩
  exact ((readLow_eq_some_iff ..).1 hread).2

/-- The result of a 32-bit operation is a function of the low half of `opnd`. -/
theorem resultOf_eq_of_low_half_eq {i : Instr} {x y : Word} (hi : i.width.bits = 32)
    (h : x.extractLsb' 0 32 = y.extractLsb' 0 32) : resultOf i x = resultOf i y := by
  cases i with
  | clz32 => simp only [resultOf, h]
  | ctz32 => simp only [resultOf, h]
  | rbit32 => simp only [resultOf, h]
  | clz64 => cases hi
  | ctz64 => cases hi
  | rbit64 => cases hi

theorem exec_refused_of_undriven {i : Instr} {s : State} {k : Nat} (hk : k < i.width.bits)
    (hd : s.opnd.driven.getLsbD k = false) : ∃ r, exec i s = .refused r := by
  refine (exec_next_or_refused i s).resolve_left ?_
  rintro ⟨t, ht⟩
  obtain ⟨⟨-, hdriven⟩, -⟩ := exec_next_iff.1 ht
  exact Bool.false_ne_true (hd.symm.trans (hdriven k hk))

/-- A state that meets a 32-bit operation's duties shares them, and the result, with every state alike in the supply, the stability and `opnd[31:0]`. -/
theorem exec_next_of_agree_low_half {i : Instr} {s t u : State} (hi : i.width.bits = 32)
    (hpow : s.powered = t.powered) (hstab : s.stability = t.stability)
    (hagree : AgreeBelow 32 s.opnd t.opnd) (hexec : exec i s = .next u) :
    exec i t = .next { t with res := u.res } := by
  obtain ⟨⟨⟨hp, hs⟩, hdriven⟩, rfl⟩ := exec_next_iff.1 hexec
  unfold OperandDriven at hdriven
  rw [hi] at hdriven
  have hready : Ready i t := by
    refine ⟨⟨hpow ▸ hp, hstab ▸ hs⟩, fun k hk => ?_⟩
    have hk32 : k < 32 := hi ▸ hk
    exact (hagree k hk32).1 ▸ hdriven k hk32
  have hresult : resultOf i s.opnd.value = resultOf i t.opnd.value :=
    resultOf_eq_of_low_half_eq hi (extractLsb'_value_eq_of_agree hagree hdriven)
  rw [exec_next_iff.2 ⟨hready, rfl⟩, ← hresult]
  rfl

/-- Settles O21: a 32-bit operation needs and uses `opnd[31:0]` alone, a 64-bit one needs each of the 64 bits, and reversal is injective. -/
theorem operandIsTheLowNBits : Obligations.OperandIsTheLowNBits := by
  refine ⟨fun i s t u hi hpow hstab hagree hexec => ?_, fun i s k hi hk => ?_, fun s t s' t' hs ht hres => ?_⟩
  · exact ⟨_, exec_next_of_agree_low_half hi hpow hstab hagree hexec, rfl⟩
  · exact exec_refused_of_undriven (hi ▸ hk)
  · obtain ⟨-, rfl⟩ := exec_next_iff.1 hs
    obtain ⟨-, rfl⟩ := exec_next_iff.1 ht
    have hpacked : packValue (rbit s.opnd.value) = packValue (rbit t.opnd.value) := Option.some.inj hres
    rw [packValue_word, packValue_word] at hpacked
    exact rbit_injective hpacked

end Sys2Proof.Machine

/-! ## Counting leading zeros (40_clz.md R80 to R84) -/

namespace Sys2Proof.Machine

section ClzCount

variable {n : Nat} {x : BitVec n}

@[simp] theorem clz_zero (n : Nat) : clz 0#n = n := if_pos rfl

@[simp] theorem ctz_zero (n : Nat) : ctz 0#n = n := if_pos rfl

theorem clz_of_ne_zero (h : x ≠ 0#n) : clz x = n - 1 - msb x := if_neg h

/-- The model's count meets R80's description, which speaks of the bits alone. -/
theorem leadingZeros_clz (x : BitVec n) : LeadingZeros x (clz x) := by
  by_cases h : x = 0#n
  · subst h
    rw [clz_zero]
    exact ⟨Nat.le_refl n, fun i _ _ => BitVec.getLsbD_zero, fun hlt => absurd hlt (Nat.lt_irrefl n)⟩
  · have inRange : msb x < n := msb_lt h
    have hclz : clz x = n - 1 - msb x := clz_of_ne_zero h
    refine ⟨clz_le x, fun i hi _ => ?_, fun _ => ?_⟩
    · by_contra hset
      have hle : i ≤ msb x := le_msb (Bool.eq_true_of_not_eq_false hset)
      omega
    · have hindex : n - 1 - clz x = msb x := by omega
      rw [hindex]
      exact getLsbD_msb h

theorem clz_eq_zero_of_top_bit (h : x.getLsbD (n - 1) = true) : clz x = 0 :=
  leadingZeros_unique (leadingZeros_clz x) ⟨Nat.zero_le n, fun i _ _ => by omega, fun _ => h⟩

end ClzCount

section ReadyCompletes

variable {i : Instr} {s : State}

/-- A ready operation completes with its result, and changes nothing else. -/
theorem exec_of_ready {v : Word} (h : Ready i s) (hv : resultOf i s.opnd.value = v) :
    exec i s = .next { s with res := some v } :=
  exec_next_iff.2 ⟨h, hv ▸ rfl⟩

/-- A ready operation that counts completes with a count in `[0, N]`. -/
theorem exec_count_le_width (hi : i.func ≠ .rbit) (h : Ready i s) :
    ∃ v : Word, exec i s = .next { s with res := some v } ∧ v.toNat ≤ i.width.bits := by
  obtain ⟨c, hc, hcount⟩ := exists_resultOf_eq_packCount hi s.opnd.value
  have hval : (packCount c).toNat = c := packCount_toNat (Nat.le_trans hc (width_bits_le i))
  exact ⟨packCount c, exec_of_ready h hcount, hval.symm ▸ hc⟩

end ReadyCompletes

/-- Settles O36: the bits above `msb` are the leading zeros, and there are N - 1 - msb of them. -/
theorem clzIsTheLeadingZeroCount : Obligations.ClzIsTheLeadingZeroCount :=
  fun n x => ⟨leadingZeros_clz x, fun h => h ▸ clz_zero n, fun h => ⟨clz_of_ne_zero h, msb_lt h⟩⟩

/-- Settles O9: the count of the low half is R80's count; the corner cases are `clz` of zero and of a value with its top bit set. -/
theorem clz32CountsLeadingZeros : Obligations.Clz32CountsLeadingZeros := by
  refine ⟨rfl, rfl, fun s hready => ⟨clz (s.opnd.value.extractLsb' 0 32), leadingZeros_clz _,
    exec_of_ready hready rfl, ?zeroHalf, ?topBit, ?onesAboveZeroHalf, ?highBits, ?workedExample⟩⟩
  case zeroHalf => intro h; rw [h, clz_zero]
  case topBit =>
    intro h
    exact clz_eq_zero_of_top_bit (by simpa using h)
  case onesAboveZeroHalf => intro h; rw [h]; exact clz_zero 32
  case highBits =>
    have hle : clz (s.opnd.value.extractLsb' 0 32) ≤ 32 := clz_le _
    exact extractLsb'_packCount_eq_zero (by omega) (by omega) 58
  case workedExample => intro h; rw [h]; decide

/-- Settles O10: the count of the whole operand is R80's count; the corner cases are `clz` of zero, of one and of a value with its top bit set. -/
theorem clz64CountsLeadingZeros : Obligations.Clz64CountsLeadingZeros := by
  refine ⟨rfl, rfl, fun s hready => ⟨clz s.opnd.value, leadingZeros_clz _,
    exec_of_ready hready rfl, ?zero, ?one, clz_eq_zero_of_top_bit, ?highBits⟩⟩
  case zero => intro h; rw [h, clz_zero]
  case one => intro h; rw [h]; decide
  case highBits =>
    have hle : clz s.opnd.value ≤ 64 := clz_le _
    exact extractLsb'_packCount_eq_zero hle (by omega) 57

/-- Settles O39: a count never exceeds its width, and `res` holds it exactly. -/
theorem leadingZeroCountLiesInRange : Obligations.LeadingZeroCountLiesInRange :=
  ⟨fun _ => clz_le, fun _ => exec_count_le_width (by decide), fun _ => exec_count_le_width (by decide)⟩

/-- Settles O15: both counts take their zero branch, and the port carries the width. -/
theorem zeroOperandCountsTheWidth : Obligations.ZeroOperandCountsTheWidth := by
  refine ⟨clz_zero 32, clz_zero 64, ctz_zero 32, ctz_zero 64, ?clz32, ?clz64, ?ctz32, ?ctz64⟩ <;>
    intro s hready hzero <;> apply exec_of_ready hready
  case clz32 => rw [resultOf, hzero, clz_zero]; rfl
  case clz64 => rw [resultOf, hzero, clz_zero]; rfl
  case ctz32 => rw [resultOf, hzero, ctz_zero]; rfl
  case ctz64 => rw [resultOf, hzero, ctz_zero]; rfl

end Sys2Proof.Machine


/-! ## Counting trailing zeros (41_ctz.md R95 to R97) -/

namespace Sys2Proof.Machine

section CtzCount

variable {n : Nat} {x : BitVec n}

theorem ctz_of_ne_zero (h : x ≠ 0#n) : ctz x = lsb x := if_neg h

/-- The model's count meets R95's description, which speaks of the bits alone. -/
theorem trailingZeros_ctz (x : BitVec n) : TrailingZeros x (ctz x) := by
  by_cases h : x = 0#n
  · subst h
    rw [ctz_zero]
    exact ⟨Nat.le_refl n, fun i _ => BitVec.getLsbD_zero, fun hlt => absurd hlt (Nat.lt_irrefl n)⟩
  · rw [ctz_of_ne_zero h]
    refine ⟨Nat.le_of_lt (lsb_lt h), fun i hi => ?_, fun _ => getLsbD_lsb h⟩
    by_contra hset
    exact Nat.not_le_of_lt hi (lsb_le (Bool.eq_true_of_not_eq_false hset))

theorem ctz_eq_zero_of_low_bit (h : x.getLsbD 0 = true) : ctz x = 0 :=
  trailingZeros_unique (trailingZeros_ctz x)
    ⟨Nat.zero_le n, fun i hi => absurd hi (Nat.not_lt_zero i), fun _ => h⟩

end CtzCount

/-- Settles O37: the bits below `lsb` are the trailing zeros, and there are lsb(x) of them. -/
theorem ctzIsTheTrailingZeroCount : Obligations.CtzIsTheTrailingZeroCount :=
  fun n x => ⟨trailingZeros_ctz x, fun h => h ▸ ctz_zero n, ctz_of_ne_zero⟩

/-- Settles O11: the count of the low half is R95's count; the corner cases are `ctz` of zero, of a value with its low bit set and of the top bit alone. -/
theorem ctz32CountsTrailingZeros : Obligations.Ctz32CountsTrailingZeros := by
  refine ⟨rfl, rfl, fun s hready => ⟨ctz (s.opnd.value.extractLsb' 0 32), trailingZeros_ctz _,
    exec_of_ready hready rfl, ?zeroHalf, ?onesAboveZeroHalf, ?lowBit, ?topBitAlone, ?highBits, ?workedExample⟩⟩
  case zeroHalf => intro h; rw [h, ctz_zero]
  case onesAboveZeroHalf => intro h; rw [h]; exact ctz_zero 32
  case lowBit =>
    intro h
    exact ctz_eq_zero_of_low_bit (by simpa using h)
  case topBitAlone => intro h; rw [h]; decide
  case highBits =>
    have hle : ctz (s.opnd.value.extractLsb' 0 32) ≤ 32 := ctz_le _
    exact extractLsb'_packCount_eq_zero (by omega) (by omega) 58
  case workedExample => intro h; rw [h]; exact ctz_eq_zero_of_low_bit rfl

/-- Settles O12: the count of the whole operand is R95's count; the corner cases are `ctz` of zero, of a value with its low bit set and of the top bit alone. -/
theorem ctz64CountsTrailingZeros : Obligations.Ctz64CountsTrailingZeros := by
  refine ⟨rfl, rfl, fun s hready => ⟨ctz s.opnd.value, trailingZeros_ctz _,
    exec_of_ready hready rfl, ?zero, ctz_eq_zero_of_low_bit, ?topBitAlone, ?highBits⟩⟩
  case zero => intro h; rw [h, ctz_zero]
  case topBitAlone => intro h; rw [h]; decide
  case highBits =>
    have hle : ctz s.opnd.value ≤ 64 := ctz_le _
    exact extractLsb'_packCount_eq_zero hle (by omega) 57

end Sys2Proof.Machine

/-! ## Bit reversal (42_rbit.md R110 to R112, R115) -/

namespace Sys2Proof.Machine

section Palindromes

variable {n : Nat} {x : BitVec n}

/-- A value that reads the same from both ends reverses to itself (R112). -/
theorem rbit_eq_self_of_palindrome (h : Reversed x x) : rbit x = x :=
  reversed_unique (reversed_rbit x) h

@[simp] theorem rbit_zero (n : Nat) : rbit 0#n = 0#n :=
  rbit_eq_self_of_palindrome fun i _ => by rw [BitVec.getLsbD_zero, BitVec.getLsbD_zero]

@[simp] theorem rbit_allOnes (n : Nat) : rbit (BitVec.allOnes n) = BitVec.allOnes n := by
  refine rbit_eq_self_of_palindrome fun i hi => ?_
  have hmirror : n - 1 - i < n := by omega
  rw [BitVec.getLsbD_allOnes, BitVec.getLsbD_allOnes, decide_eq_true hi, decide_eq_true hmirror]

end Palindromes

section Loops

variable {n : Nat} (acc x : BitVec n)

/-- The word that a loop ORs into its accumulator carries the peeled bit at place `m` alone. -/
theorem getLsbD_enteringBit (b : Bool) {m : Nat} (hm : m < n) (i : Nat) :
    (if b then BitVec.twoPow n m else 0#n).getLsbD i = (b && decide (m = i)) := by
  cases b with
  | false => exact BitVec.getLsbD_zero
  | true => simp [hm]

/-- One round of R115's loop: the peeled bit enters at bit 0, every other bit moves up one place. -/
theorem getLsbD_shiftLeft_or_enteringBit (b : Bool) {i : Nat} (hi : i < n) :
    ((acc <<< 1) ||| (if b then BitVec.twoPow n 0 else 0#n)).getLsbD i =
      if i = 0 then b else acc.getLsbD (i - 1) := by
  have h0 : 0 < n := by omega
  rw [BitVec.getLsbD_or, getLsbD_enteringBit b h0]
  cases i with
  | zero => simp
  | succ j => rw [BitVec.getLsbD_shiftLeft, decide_eq_true hi]; simp

/-- One round of the rejected reading: the peeled bit enters at bit N-1, every other bit moves down one place. -/
theorem getLsbD_ushiftRight_or_enteringBit (b : Bool) {i : Nat} (hi : i < n) :
    ((acc >>> 1) ||| (if b then BitVec.twoPow n (n - 1) else 0#n)).getLsbD i =
      if i = n - 1 then b else acc.getLsbD (i + 1) := by
  have htop : n - 1 < n := by omega
  rw [BitVec.getLsbD_or, getLsbD_enteringBit b htop, BitVec.getLsbD_ushiftRight, Nat.add_comm 1 i]
  by_cases hlast : i = n - 1
  · have hpast : n ≤ i + 1 := by omega
    rw [BitVec.getLsbD_of_ge acc _ hpast, if_pos hlast, decide_eq_true hlast.symm, Bool.and_true, Bool.false_or]
  · rw [if_neg hlast, decide_eq_false (Ne.symm hlast), Bool.and_false, Bool.or_false]

/-- After `k` rounds of R115's loop the first `k` bits of `x` stand reversed below the old bits of `acc`. -/
theorem getLsbD_rbitRounds {i : Nat} (hi : i < n) (k : Nat) :
    (rbitRounds acc x k).getLsbD i = if i < k then x.getLsbD (k - 1 - i) else acc.getLsbD (i - k) := by
  induction k generalizing acc x with
  | zero => rfl
  | succ k ih =>
    have hin : i - k < n := by omega
    rw [rbitRounds, ih, getLsbD_shiftLeft_or_enteringBit _ _ hin, BitVec.getLsbD_ushiftRight]
    rcases Nat.lt_trichotomy i k with below | rfl | above
    · have hpeeled : 1 + (k - 1 - i) = k + 1 - 1 - i := by omega
      rw [if_pos below, if_pos (Nat.lt_succ_of_lt below), hpeeled]
    · simp
    · have hold : i - k - 1 = i - (k + 1) := by omega
      rw [if_neg (Nat.lt_asymm above), if_neg (Nat.sub_ne_zero_of_lt above), if_neg (Nat.not_lt_of_le above), hold]

/-- After `k` rounds of the rejected reading the first `k` bits of `x` stand in order above the old bits of `acc`. -/
theorem getLsbD_rejectedRounds {i : Nat} (hi : i < n) (k : Nat) :
    (rejectedRounds acc x k).getLsbD i = if i + k < n then acc.getLsbD (i + k) else x.getLsbD (i + k - n) := by
  induction k generalizing acc x with
  | zero => exact (if_pos hi).symm
  | succ k ih =>
    rw [rejectedRounds, ih, BitVec.getLsbD_ushiftRight]
    by_cases hin : i + k < n
    · rw [if_pos hin, getLsbD_ushiftRight_or_enteringBit _ _ hin]
      by_cases hlast : i + k = n - 1
      · have hfull : ¬ i + (k + 1) < n := by omega
        have hfirst : i + (k + 1) - n = 0 := by omega
        rw [if_pos hlast, if_neg hfull, hfirst]
      · have hroom : i + (k + 1) < n := by omega
        rw [if_neg hlast, if_pos hroom, Nat.add_assoc]
    · have hfull : ¬ i + (k + 1) < n := by omega
      have hpeeled : 1 + (i + k - n) = i + (k + 1) - n := by omega
      rw [if_neg hin, if_neg hfull, hpeeled]

end Loops

/-- Settles O38: `rbit` meets R110's description at every width. -/
theorem rbitReversesTheBitOrder : Obligations.RbitReversesTheBitOrder :=
  fun _ x => reversed_rbit x

/-- Settles O13: the low half is reversed under zeros; the corner cases are palindromes and a lone low bit. -/
theorem rbit32ReversesLowHalf : Obligations.Rbit32ReversesLowHalf := by
  refine ⟨rfl, rfl, fun s hready => ⟨rbit (s.opnd.value.extractLsb' 0 32), reversed_rbit _,
    exec_of_ready hready rfl, (packValue_halves _).2, ?zeroHalf, ?onesHalf, ?onesAboveZeroHalf, ?workedExample⟩⟩
  case zeroHalf => intro h; rw [h, rbit_zero]
  case onesHalf => intro h; rw [h]; exact rbit_allOnes 32
  case onesAboveZeroHalf => intro h; rw [h]; exact rbit_zero 32
  case workedExample => intro h; rw [h]; decide

/-- Settles O14: the operand is reversed; the corner cases are palindromes and a lone low bit. -/
theorem rbit64ReversesOperand : Obligations.Rbit64ReversesOperand := by
  refine ⟨rfl, rfl, fun s hready => ⟨rbit s.opnd.value, reversed_rbit _,
    exec_of_ready hready (packValue_word _), ?zero, ?ones, ?palindrome, ?endBits, ?lowBitAlone⟩⟩
  case zero => intro h; rw [h, rbit_zero]
  case ones => intro h; rw [h]; exact rbit_allOnes 64
  case palindrome => exact rbit_eq_self_of_palindrome
  case endBits =>
    intro h
    rw [h]
    exact rbit_eq_self_of_palindrome (by unfold Reversed; decide)
  case lowBitAlone => intro h; rw [h]; decide

/-- Settles O53: after N rounds the accumulator holds all of `x` and none of its old bits, reversed by one loop and in order by the other. -/
theorem reversingLoopComputesRbit : Obligations.ReversingLoopComputesRbit := by
  refine fun n x => ⟨reversed_unique (fun i hi => ?loop) (reversed_rbit x), BitVec.eq_of_getLsbD_eq fun i hi => ?rejected⟩
  case loop => rw [rbitLoop, getLsbD_rbitRounds _ _ hi, if_pos hi]
  case rejected => rw [rejectedLoop, getLsbD_rejectedRounds _ _ hi, if_neg (by omega), Nat.add_sub_cancel]

end Sys2Proof.Machine

/-! ## Unsigned reading of an operand with its top bit set (R127) -/

namespace Sys2Proof.Machine

section TopBit

variable {i : Instr} {s : State} {n : Nat} {x : BitVec n}

/-- A ready leading-zero count of a value `x` with its top bit set completes with 0, and `x` read unsigned is at least 2^(N-1). -/
theorem exec_zero_and_two_pow_le_of_top_bit (hready : Ready i s)
    (hcount : resultOf i s.opnd.value = packCount (clz x)) (htop : x.getLsbD (n - 1) = true) :
    exec i s = .next { s with res := some 0#64 } ∧ 2 ^ (n - 1) ≤ x.toNat := by
  rw [clz_eq_zero_of_top_bit htop] at hcount
  exact ⟨exec_of_ready hready hcount, Nat.ge_two_pow_of_testBit htop⟩

end TopBit

/-- Settles O17: at either width the operand's own top bit leaves no leading zero, and weighs 2^(N-1) in its unsigned value. -/
theorem topBitSetIsALargeUnsignedValue : Obligations.TopBitSetIsALargeUnsignedValue := by
  refine ⟨fun s hready htop => ?clz32, fun s hready htop => ?clz64⟩
  case clz32 =>
    have hlow : (s.opnd.value.extractLsb' 0 32).getLsbD 31 = true := by simpa using htop
    exact exec_zero_and_two_pow_le_of_top_bit hready rfl hlow
  case clz64 => exact exec_zero_and_two_pow_le_of_top_bit hready rfl htop

end Sys2Proof.Machine

/-! ## Exceptions and refusals (60_exceptions.md R140, R141) -/

namespace Sys2Proof.Machine

/-- Rules a fault out by what an evaluation does, not by `Fault` being empty. -/
theorem ne_fault_of_next_or_refused {o : Host.Outcome State Fault Refusal}
    (h : (∃ t, o = .next t) ∨ ∃ r, o = .refused r) (e : Fault) : o ≠ .fault e := by
  obtain ⟨t, rfl⟩ | ⟨r, rfl⟩ := h
  · nofun
  · nofun

theorem exec_ne_fault (i : Instr) (s : State) (e : Fault) : exec i s ≠ .fault e :=
  ne_fault_of_next_or_refused (exec_next_or_refused i s) e

theorem step_ne_fault (s : State) (e : Fault) : step s ≠ .fault e :=
  ne_fault_of_next_or_refused (step_next_or_refused s) e

section UnmetDuties

variable {s : State}

/-- A step is refused when the driver's duties are met for no operation. -/
theorem step_refused_of_not_presents (h : ∀ i, ¬ Presents i s) : ∃ r, step s = .refused r := by
  refine (step_next_or_refused s).resolve_left ?_
  rintro ⟨t, ht⟩
  obtain ⟨i, presents, -⟩ := step_next_iff.1 ht
  exact h i presents

theorem step_refused_of_select_undriven {k : Nat} (hk : k < 3) (hd : s.ctl.driven.getLsbD k = false) :
    ∃ r, step s = .refused r :=
  step_refused_of_not_presents fun _ ⟨selectDriven, _⟩ => Bool.false_ne_true (hd.symm.trans (selectDriven k hk))

theorem step_refused_of_operand_undriven {i : Instr} {k : Nat} (hctl : SelectDriven s)
    (hdec : decodeSelect s.ctl.value = .ok i) (hk : k < i.width.bits) (hd : s.opnd.driven.getLsbD k = false) :
    ∃ r, step s = .refused r := by
  rw [step_eq_exec (fetch_ok_iff.2 ⟨hctl, hdec⟩)]
  exact exec_refused_of_undriven hk hd

theorem step_refused_of_not_settled (h : ¬ Settled s) : ∃ r, step s = .refused r :=
  step_refused_of_not_presents fun _ ⟨_, _, settled, _⟩ => h settled

end UnmetDuties

/-- Settles O24: each condition leaves one of the driver's duties unmet, and a refused step does not fault. -/
theorem threeInputConditionsAreRefused : Obligations.ThreeInputConditionsAreRefused := by
  refine fun s hcondition => ⟨?refused, step_ne_fault s⟩
  obtain ⟨hctl, hreserved⟩ | ⟨k, hk, hundriven⟩ | ⟨i, k, hctl, hdec, hk, hundriven⟩ | ⟨t, hpending⟩ := hcondition
  · exact ⟨_, step_of_decodeSelect_error hctl hreserved⟩
  · exact step_refused_of_select_undriven hk hundriven
  · exact step_refused_of_operand_undriven hctl hdec hk hundriven
  · exact step_refused_of_not_settled fun ⟨_, hsettled⟩ => by rw [hpending] at hsettled; cases hsettled

/-- Settles O27: a ready operation drives its result, and no evaluation ends otherwise than in a result or a refusal. -/
theorem noOperationRaisesAnException : Obligations.NoOperationRaisesAnException :=
  ⟨fun _ _ hready => ⟨_, exec_of_ready hready rfl⟩, exec_ne_fault, step_ne_fault⟩

end Sys2Proof.Machine

/-! ## Supply, settling and undriven wires (70_reset_and_hazards.md R161 to R164) -/

namespace Sys2Proof.Machine

section PackedCounts

variable {n : Nat}

theorem leadingZeros_packCount_clz (hn : n ≤ 64) (x : BitVec n) : LeadingZeros x (packCount (clz x)).toNat := by
  rw [packCount_toNat ((clz_le x).trans hn)]
  exact leadingZeros_clz x

theorem trailingZeros_packCount_ctz (hn : n ≤ 64) (x : BitVec n) : TrailingZeros x (packCount (ctz x)).toNat := by
  rw [packCount_toNat ((ctz_le x).trans hn)]
  exact trailingZeros_ctz x

end PackedCounts

/-- What a completed operation drives meets its own rule's description, which speaks of the bits alone. -/
theorem isResult_resultOf (i : Instr) (x : Word) : IsResult i x (resultOf i x) := by
  cases i with
  | clz32 => exact leadingZeros_packCount_clz (by decide) _
  | clz64 => exact leadingZeros_packCount_clz (by decide) x
  | ctz32 => exact trailingZeros_packCount_ctz (by decide) _
  | ctz64 => exact trailingZeros_packCount_ctz (by decide) x
  | rbit32 =>
    obtain ⟨hlow, hhigh⟩ := packValue_halves (rbit (x.extractLsb' 0 32))
    rw [IsResult, resultOf, hlow, hhigh]
    exact ⟨reversed_rbit _, rfl⟩
  | rbit64 =>
    rw [IsResult, resultOf, packValue_word]
    exact reversed_rbit x

theorem drive_driven_getLsbD {w : Nat} (v : BitVec w) {k : Nat} (hk : k < w) :
    (InputPort.drive v).driven.getLsbD k = true := by
  rw [InputPort.drive_driven, BitVec.getLsbD_allOnes, decide_eq_true hk]

section MetDuties

variable {s : State}

theorem step_of_presents {i : Instr} (h : Presents i s) :
    step s = .next { s with res := some (resultOf i s.opnd.value) } :=
  step_next_iff.2 ⟨i, h, rfl⟩

theorem exists_step_next_iff_presents : (∃ t, step s = .next t) ↔ ∃ i, Presents i s := by
  constructor
  · rintro ⟨t, ht⟩
    obtain ⟨i, presents, -⟩ := step_next_iff.1 ht
    exact ⟨i, presents⟩
  · rintro ⟨i, presents⟩
    exact ⟨_, step_of_presents presents⟩

theorem step_ne_next_of_refused {r : Refusal} (h : step s = .refused r) (t : State) : step s ≠ .next t := by
  rw [h]; nofun

/-- With every wire driven, the operation's width does not matter: a settled sample is `Eval` of the levels. -/
theorem step_of_eval_ok {v : Word} (hsettled : Settled s) (hctl : SelectDriven s)
    (hopnd : ∀ k, k < 64 → s.opnd.driven.getLsbD k = true) (hv : eval s.ctl.value s.opnd.value = .ok v) :
    step s = .next { s with res := some v } := by
  obtain ⟨i, hdec, rfl⟩ := eval_eq_ok_iff.1 hv
  exact step_of_presents ⟨hctl, hdec, hsettled, fun k hk => hopnd k (Nat.lt_of_lt_of_le hk (width_bits_le i))⟩

theorem step_of_driven_eval_ok {c : Select} {x v : Word} (hsettled : Settled s) (hctl : s.ctl = .drive c)
    (hopnd : s.opnd = .drive x) (hv : eval c x = .ok v) : step s = .next { s with res := some v } :=
  step_of_eval_ok hsettled (fun _ hk => hctl ▸ drive_driven_getLsbD c hk)
    (fun _ hk => hopnd ▸ drive_driven_getLsbD x hk) (by rw [hctl, hopnd]; exact hv)

end MetDuties

section DriverProtocol

theorem runDriver_singleton (a : DriverAction) (s : State) : runDriver [a] s = perform a s := by
  rw [runDriver]
  cases perform a s <;> rfl

/-- R162's protocol is one step of the state it prepares. -/
theorem runDriver_powerOn_present_hold_sample (s : State) (c : InputPort 3) (x : InputPort 64) (t : Nat) :
    runDriver [.powerOn, .present c x, .hold t, .sample] s = step ((s.powerOn.present c x).hold t) :=
  runDriver_singleton .sample ((s.powerOn.present c x).hold t)

theorem settled_powerOn_present_hold (s : State) (c : InputPort 3) (x : InputPort 64) {t : Nat}
    (ht : Config.tPD ≤ t) : Settled ((s.powerOn.present c x).hold t) :=
  ⟨State.present_powered .., Stability.after_tPD ht _⟩

end DriverProtocol

/-- Settles O8: a step completes only on met duties, and its other outcome is a refusal, never both. -/
theorem stepCompletesExactlyWhenDutiesMet : Obligations.StepCompletesExactlyWhenDutiesMet := by
  refine fun s => ⟨exists_step_next_iff_presents, ?refused, fun h => ?unmet⟩
  case refused =>
    rintro ⟨r, hr⟩ met
    obtain ⟨t, ht⟩ := exists_step_next_iff_presents.2 met
    exact step_ne_next_of_refused hr t ht
  case unmet => exact step_refused_of_not_presents (not_exists.1 h)

/-- Settles O25: an undriven bit that is read leaves a duty unmet; a 32-bit operation's duties do not mention `opnd[63:32]`. -/
theorem undrivenBitsRefusedExceptTheIgnoredHalf : Obligations.UndrivenBitsRefusedExceptTheIgnoredHalf := by
  refine ⟨fun s k => step_refused_of_select_undriven, fun s i k => step_refused_of_operand_undriven,
    fun s i hctl hdec hwidth hsettled hlow => ?_⟩
  have hdriven : OperandDriven i s := fun k hk => hlow k (hwidth ▸ hk)
  exact ⟨_, isResult_resultOf i s.opnd.value, step_of_presents ⟨hctl, hdec, hsettled, hdriven⟩⟩

/-- Settles O30: powering on, presenting and holding leave a settled state with the presented levels, whatever state came before. -/
theorem firstSettledSampleIsEval : Obligations.FirstSettledSampleIsEval := by
  intro s c x v t ht hv
  have hsettled := settled_powerOn_present_hold s (.drive c) (.drive x) ht
  have hstep := step_of_driven_eval_ok hsettled (State.present_ctl ..) (State.present_opnd ..) hv
  exact ⟨_, (runDriver_powerOn_present_hold_sample ..).trans hstep, rfl, State.present_ctl .., State.present_opnd ..⟩

/-- Settles O26: an unstable supply or unsettled inputs leave a duty unmet; with both stable the sample is `Eval`. -/
theorem noObservationBeforeSupplyAndInputsAreStable : Obligations.NoObservationBeforeSupplyAndInputsAreStable := by
  refine ⟨fun s hunsettled => ?_, fun s v => step_of_eval_ok⟩
  obtain ⟨r, hr⟩ := step_refused_of_not_settled hunsettled
  exact ⟨step_ne_next_of_refused hr, r, hr⟩

end Sys2Proof.Machine

/-! ## Decode and encode agree (30_encoding.md R67 to R71) -/

namespace Sys2Proof

theorem opselOf_append_wselOf (c : Select) : opselOf c ++ wselOf c = c :=
  (BitVec.extractLsb'_append_extractLsb'_eq_extractLsb' rfl).trans BitVec.extractLsb'_eq_self

theorem wselCode_widthOf (w : BitVec 1) : wselCode (widthOf w) = w := by
  revert w; decide

theorem decodeSelect_encode (i : Instr) : decodeSelect (encode i) = .ok i := by
  cases i <;> rfl

section SelectWords

variable {c d : Select} {i : Instr}

/-- Both fields of a select word can be read off the operation it decodes to. -/
theorem encode_of_decodeSelect (h : decodeSelect c = .ok i) : encode i = c := by
  cases hf : funcOf (opselOf c) with
  | none => rw [decodeSelect_of_funcOf_none hf] at h; cases h
  | some f =>
    rw [decodeSelect_of_funcOf_some hf] at h
    cases h
    rw [encode, instrOf_func, instrOf_width, wselCode_widthOf, ← funcOf_eq_some_iff.1 hf, opselOf_append_wselOf]

theorem decodeSelect_injective (hc : decodeSelect c = .ok i) (hd : decodeSelect d = .ok i) : c = d :=
  (encode_of_decodeSelect hc).symm.trans (encode_of_decodeSelect hd)

theorem opselOf_eq_reserved_iff : opselOf c = 0b11#2 ↔ 6 ≤ c.toNat := by
  revert c; decide

theorem decodeSelect_of_lt_six (h : c.toNat < 6) : ∃ i, decodeSelect c = .ok i := by
  cases hf : funcOf (opselOf c) with
  | none => exact absurd (opselOf_eq_reserved_iff.1 (funcOf_eq_none_iff.1 hf)) (Nat.not_le_of_lt h)
  | some f => exact ⟨_, decodeSelect_of_funcOf_some hf⟩

theorem decodeSelect_of_six_le (h : 6 ≤ c.toNat) : decodeSelect c = .error .reservedOpsel :=
  decodeSelect_of_funcOf_none (funcOf_eq_none_iff.2 (opselOf_eq_reserved_iff.2 h))

end SelectWords

section SelectBytes

variable {b : Byte} {i : Instr} {rest : List Byte}

/-- A byte with nothing above its select word is that word widened (log entry 5). -/
theorem setWidth_extractLsb'_of_holdsSelect (h : holdsSelect b = true) : (b.extractLsb' 0 3).setWidth 8 = b := by
  have hhigh : b.extractLsb' 3 5 = 0#5 := eq_of_beq h
  calc (b.extractLsb' 0 3).setWidth 8
      = 0#5 ++ b.extractLsb' 0 3 := BitVec.setWidth_eq_append (by decide)
    _ = b.extractLsb' 3 5 ++ b.extractLsb' 0 3 := by rw [hhigh]
    _ = b := (BitVec.extractLsb'_append_extractLsb'_eq_extractLsb' rfl).trans BitVec.extractLsb'_eq_self

/-- Everything `decodeBytes` can do when it answers an operation. -/
theorem decodeBytes_ok_iff {bytes : List Byte} :
    decodeBytes bytes = .ok (i, rest) ↔
      ∃ b, bytes = b :: rest ∧ holdsSelect b = true ∧ decodeSelect (b.extractLsb' 0 3) = .ok i := by
  cases bytes with
  | nil => simp [decodeBytes]
  | cons b tail =>
    constructor
    · intro h
      rw [decodeBytes] at h
      split at h
      next hb =>
        split at h
        next j hd => cases h; exact ⟨b, rfl, hb, hd⟩
        next => cases h
      next => cases h
    · rintro ⟨_, ⟨rfl, rfl⟩, hb, hd⟩
      simp only [decodeBytes, hb, hd, if_true]

theorem decodeBytes_encodeBytes (i : Instr) (rest : List Byte) :
    decodeBytes (encodeBytes i ++ rest) = .ok (i, rest) := by
  refine decodeBytes_ok_iff.2 ⟨(encode i).setWidth 8, rfl, ?_⟩
  cases i <;> exact ⟨rfl, rfl⟩

theorem eq_encodeBytes_of_decodeBytes {bytes : List Byte} (h : decodeBytes bytes = .ok (i, rest)) :
    bytes = encodeBytes i ++ rest := by
  obtain ⟨b, rfl, hb, hd⟩ := decodeBytes_ok_iff.1 h
  have hbyte : (encode i).setWidth 8 = b := by
    rw [encode_of_decodeSelect hd, setWidth_extractLsb'_of_holdsSelect hb]
  rw [encodeBytes, hbyte]
  rfl

end SelectBytes

/-- A word of the table is the select word with that number. -/
theorem decodeTableWord_eq_some {nbits w : Nat} {i : Instr} (h : decodeTableWord nbits w = some i) :
    w < 8 ∧ decodeSelect (BitVec.ofNat 3 w) = .ok i := by
  unfold decodeTableWord at h
  split at h
  next hw =>
    refine ⟨hw, ?_⟩
    split at h
    next j rest hbytes =>
      cases h
      obtain ⟨b, hb, -, hd⟩ := decodeBytes_ok_iff.1 hbytes
      cases hb
      rwa [← BitVec.setWidth_eq_extractLsb' (by decide), BitVec.setWidth_ofNat_of_le (by decide)] at hd
    next => cases h
  next => cases h

/-- Settles O3: a select word is its two fields, and a byte accepted as one has nothing above it. -/
theorem decodeAndEncodeAgree : Obligations.DecodeAndEncodeAgree :=
  ⟨decodeSelect_encode, fun _ _ => encode_of_decodeSelect, decodeBytes_encodeBytes,
    fun _ _ _ => eq_encodeBytes_of_decodeBytes⟩

/-- Settles O2: each row of the opcode map by evaluation of the decoder. -/
theorem opcodeMapWordsDecode : Obligations.OpcodeMapWordsDecode := by
  unfold Obligations.OpcodeMapWordsDecode
  decide

end Sys2Proof

/-! ## A step and its frame (30_encoding.md section 3, 10_state.md section 1) -/

namespace Sys2Proof.Machine

section Steps

variable {i : Instr} {s : State}

theorem withFetchWord_ctl_of_lt {w : Nat} (hw : w < 8) (nbits : Nat) :
    (s.withFetchWord nbits w).ctl = .drive (BitVec.ofNat 3 w) := if_pos hw

theorem selectDriven_of_ctl_eq_drive {c : Select} (h : s.ctl = .drive c) : SelectDriven s :=
  fun _ hk => h ▸ drive_driven_getLsbD c hk

/-- The duties of an operation do not mention the record of `res`. -/
theorem presents_driveRes {v : Word} (h : Presents i s) : Presents i (s.driveRes v) := h

end Steps

/-- Settles O4: exactly the codes below 6 have an operation, which can be encoded back; a wholly driven operand meets its duty. -/
theorem decodeIsTotalAndEveryOperandAccepted : Obligations.DecodeIsTotalAndEveryOperandAccepted := by
  refine ⟨fun c => ?_, fun c d i => decodeSelect_injective, fun s c x hsettled hc => ?_⟩
  · obtain hc | hc := Nat.lt_or_ge c.toNat 6
    · exact .inl ⟨hc, decodeSelect_of_lt_six hc⟩
    · exact .inr ⟨hc, decodeSelect_of_six_le hc⟩
  · obtain ⟨i, hdec⟩ := decodeSelect_of_lt_six hc
    exact exists_step_next_iff_presents.2 ⟨i, fun _ hk => drive_driven_getLsbD c hk, hdec, hsettled,
      fun _ hk => drive_driven_getLsbD x (Nat.lt_of_lt_of_le hk (width_bits_le i))⟩

/-- Settles O5: `fetch` answers the selected operation, and `step` is then its meaning. -/
theorem stepRunsTheSelectedOperation : Obligations.StepRunsTheSelectedOperation :=
  fun _ _ hctl hdec => step_eq_exec (fetch_ok_iff.2 ⟨hctl, hdec⟩)

/-- Settles O6: the prepared `ctl` is driven to the table word, which the decoder reads as it reads the byte. -/
theorem presentedTableWordRuns : Obligations.PresentedTableWordRuns := by
  intro s nbits w i hword
  obtain ⟨hw, hdec⟩ := decodeTableWord_eq_some hword
  have hctl := withFetchWord_ctl_of_lt (s := s) hw nbits
  exact ⟨rfl, step_eq_exec (fetch_ok_iff.2 ⟨selectDriven_of_ctl_eq_drive hctl, hctl ▸ hdec⟩)⟩

/-- Settles O18: a completed operation only drove `res`. -/
theorem evaluationChangesOnlyRes : Obligations.EvaluationChangesOnlyRes := by
  intro i s t hexec
  obtain ⟨-, rfl⟩ := exec_next_iff.1 hexec
  exact ⟨rfl, rfl, rfl, rfl, ⟨_, rfl⟩, by cases i <;> rfl⟩

/-- Settles O20: the duties still hold after the record of `res` changed, and the second evaluation drives the same value. -/
theorem repeatedEvaluationIsIdempotent : Obligations.RepeatedEvaluationIsIdempotent := by
  intro s t hstep
  obtain ⟨i, presents, rfl⟩ := step_next_iff.1 hstep
  exact step_next_iff.2 ⟨i, presents_driveRes presents, rfl⟩

end Sys2Proof.Machine

/-! ## The record of `res` is current (10_state.md R31, 70_reset_and_hazards.md R160) -/

namespace Sys2Proof.Machine

section Agreement

variable {w m n : Nat} {p q r : InputPort w}

theorem AgreeBelow.refl (n : Nat) (p : InputPort w) : AgreeBelow n p p :=
  fun _ _ => ⟨rfl, fun _ => rfl⟩

theorem AgreeBelow.mono (h : AgreeBelow n p q) (hm : m ≤ n) : AgreeBelow m p q :=
  fun k hk => h k (Nat.lt_of_lt_of_le hk hm)

theorem AgreeBelow.symm (h : AgreeBelow n p q) : AgreeBelow n q p := by
  intro k hk
  obtain ⟨sameDriven, sameLevel⟩ := h k hk
  exact ⟨sameDriven.symm, fun hq => (sameLevel (sameDriven.trans hq)).symm⟩

theorem AgreeBelow.trans (hpq : AgreeBelow n p q) (hqr : AgreeBelow n q r) : AgreeBelow n p r := by
  intro k hk
  obtain ⟨sameDriven, sameLevel⟩ := hpq k hk
  obtain ⟨sameDriven', sameLevel'⟩ := hqr k hk
  exact ⟨sameDriven.trans sameDriven', fun hp => (sameLevel hp).trans (sameLevel' (sameDriven ▸ hp))⟩

theorem AgreeBelow.driven (h : AgreeBelow n p q) (hp : ∀ k, k < n → p.driven.getLsbD k = true) :
    ∀ k, k < n → q.driven.getLsbD k = true :=
  fun k hk => (h k hk).1 ▸ hp k hk

/-- Ports of `w` wires that agree on all of them, each driven, are at one level. -/
theorem AgreeBelow.value_eq (h : AgreeBelow w p q) (hp : ∀ k, k < w → p.driven.getLsbD k = true) :
    p.value = q.value := by
  have hlow := extractLsb'_value_eq_of_agree h hp
  rwa [BitVec.extractLsb'_eq_self, BitVec.extractLsb'_eq_self] at hlow

end Agreement

section Current

variable {i : Instr} {s t : State} {c : InputPort 3} {x : InputPort 64}

/-- Presenting either finds both ports at the levels presented, or restarts the settling time and ends the observation. -/
theorem State.present_cases (s : State) (c : InputPort 3) (x : InputPort 64) :
    (AgreeBelow 3 s.ctl c ∧ AgreeBelow 64 s.opnd x ∧ s.present c x = { s with ctl := c, opnd := x }) ∨
    (¬ (AgreeBelow 3 s.ctl c ∧ AgreeBelow 64 s.opnd x) ∧
      s.present c x = { s with ctl := c, opnd := x, stability := .pending 0, res := none }) := by
  by_cases h : AgreeBelow 3 s.ctl c ∧ AgreeBelow 64 s.opnd x
  · obtain ⟨hc, hx⟩ := h
    exact .inl ⟨hc, hx, present_unchanged ((sameLevels_iff_agree ..).2 hc) ((sameLevels_iff_agree ..).2 hx)⟩
  · exact .inr ⟨h, present_changed (by rwa [sameLevels_iff_agree, sameLevels_iff_agree])⟩

/-- A rule's description of a result looks at the bits of `opnd` that the operation reads. -/
theorem IsResult.congr {x y v : Word} (h : IsResult i x v)
    (hxy : x.extractLsb' 0 i.width.bits = y.extractLsb' 0 i.width.bits) : IsResult i y v := by
  have hwhole (h64 : x.extractLsb' 0 64 = y.extractLsb' 0 64) : x = y := by
    rwa [BitVec.extractLsb'_eq_self, BitVec.extractLsb'_eq_self] at h64
  cases i with
  | clz32 => rw [IsResult] at h ⊢; exact hxy ▸ h
  | ctz32 => rw [IsResult] at h ⊢; exact hxy ▸ h
  | rbit32 => rw [IsResult] at h ⊢; exact hxy ▸ h
  | clz64 => exact hwhole hxy ▸ h
  | ctz64 => exact hwhole hxy ▸ h
  | rbit64 => exact hwhole hxy ▸ h

theorem resCurrent_of_res_none (h : s.res = none) : ResCurrent s := by
  intro v hv
  rw [h] at hv
  cases hv

theorem resCurrent_of_step (h : step s = .next t) : ResCurrent t ∧ ∃ v, t.res = some v := by
  obtain ⟨i, presents, rfl⟩ := step_next_iff.1 h
  refine ⟨fun v hv => ?_, _, rfl⟩
  cases hv
  exact ⟨i, presents_driveRes presents, isResult_resultOf i s.opnd.value⟩

/-- Levels presented again, with another placeholder on undriven wires, keep the duties met and the result right. -/
theorem resCurrent_present (h : ResCurrent s) : ResCurrent (s.present c x) := by
  obtain ⟨hc, hx, heq⟩ | ⟨-, heq⟩ := s.present_cases c x
  · intro v hv
    rw [heq] at hv ⊢
    obtain ⟨i, ⟨hctl, hdec, hsettled, hopnd⟩, hres⟩ := h v hv
    have hlow : AgreeBelow i.width.bits s.opnd x := hx.mono (width_bits_le i)
    exact ⟨i, ⟨hc.driven hctl, hc.value_eq hctl ▸ hdec, hsettled, hlow.driven hopnd⟩,
      hres.congr (extractLsb'_value_eq_of_agree hlow hopnd)⟩
  · exact resCurrent_of_res_none (by rw [heq])

/-- An update that changes neither port nor record keeps the invariant where it keeps settled inputs settled. -/
theorem resCurrent_of_settled_mono (h : ResCurrent s) (hctl : t.ctl = s.ctl) (hopnd : t.opnd = s.opnd)
    (hres : t.res = s.res) (hsettled : Settled s → Settled t) : ResCurrent t := by
  intro v hv
  obtain ⟨i, ⟨selectDriven, selects, settled, operandDriven⟩, isResult⟩ := h v (hres ▸ hv)
  refine ⟨i, ⟨?_, ?_, hsettled settled, ?_⟩, ?_⟩
  · rwa [SelectDriven, hctl]
  · rwa [hctl]
  · rwa [OperandDriven, hopnd]
  · rwa [hopnd]

theorem resCurrent_hold (h : ResCurrent s) (u : Nat) : ResCurrent (s.hold u) := by
  refine resCurrent_of_settled_mono h rfl rfl rfl fun ⟨powered, settled⟩ => ⟨powered, ?_⟩
  rw [State.hold_stability, settled, Stability.settled_after]

theorem resCurrent_powerOn (h : ResCurrent s) : ResCurrent s.powerOn :=
  resCurrent_of_settled_mono h rfl rfl rfl fun ⟨_, settled⟩ => ⟨rfl, settled⟩

/-- Feeding back is presenting the captured result. -/
theorem perform_feedBack {v : Word} (h : s.res = some v) (c : InputPort 3) :
    perform (.feedBack c) s = perform (.present c (.drive v)) s := by
  simp only [perform, h]

theorem perform_feedBack_refused (h : s.res = none) (c : InputPort 3) :
    perform (.feedBack c) s = .refused .noObservation := by
  simp only [perform, h]

theorem perform_keeps_resCurrent {a : DriverAction} (h : ResCurrent s) (ha : perform a s = .next t) :
    ResCurrent t := by
  cases a with
  | present c x => cases ha; exact resCurrent_present h
  | hold u => cases ha; exact resCurrent_hold h u
  | powerOn => cases ha; exact resCurrent_powerOn h
  | powerOff => cases ha; exact resCurrent_of_res_none rfl
  | sample => exact (resCurrent_of_step ha).1
  | feedBack c =>
    cases hres : s.res with
    | none => rw [perform_feedBack_refused hres] at ha; cases ha
    | some v => rw [perform_feedBack hres] at ha; cases ha; exact resCurrent_present h

end Current

section Runs

variable {s t : State} {a b : DriverAction} {as : List DriverAction}

theorem runDriver_cons (h : perform a s = .next t) : runDriver (a :: as) s = runDriver as t := by
  rw [runDriver, h]

theorem runDriver_cons_congr (h : perform a s = perform b s) : runDriver (a :: as) s = runDriver (b :: as) s := by
  rw [runDriver, runDriver, h]

/-- A run that completes performed its first action, and then the rest. -/
theorem runDriver_cons_next_iff :
    runDriver (a :: as) s = .next t ↔ ∃ u, perform a s = .next u ∧ runDriver as u = .next t := by
  rw [runDriver]
  cases perform a s with
  | next u => simp
  | fault e => simp
  | refused r => simp

/-- What each action keeps, every run keeps. -/
theorem runDriver_keeps {P : State → Prop} (hP : ∀ a s t, P s → perform a s = .next t → P t) (hs : P s)
    (h : runDriver as s = .next t) : P t := by
  induction as generalizing s with
  | nil => cases h; exact hs
  | cons a as ih =>
    obtain ⟨u, ha, hrest⟩ := runDriver_cons_next_iff.1 h
    exact ih (hP a s u hs ha) hrest

end Runs

/-- Settles O32: neither state has an observation on record. -/
theorem resetObservesNothingStale : Obligations.ResetObservesNothingStale :=
  ⟨resCurrent_of_res_none rfl, resCurrent_of_res_none rfl⟩

/-- Settles O33: a completed step met the duties of the operation whose result it recorded. -/
theorem stepKeepsResCurrent : Obligations.StepKeepsResCurrent :=
  fun _ _ _ hstep => resCurrent_of_step hstep

/-- Settles O34: each action of the driver keeps the invariant, or ends the observation. -/
theorem everyDriverRunKeepsResCurrent : Obligations.EveryDriverRunKeepsResCurrent :=
  fun _ _ _ hs hrun => runDriver_keeps (fun _ _ _ => perform_keeps_resCurrent) hs hrun

end Sys2Proof.Machine

/-! ## Undriven levels have no effect (70_reset_and_hazards.md R164, log entries 10 and 13) -/

namespace Sys2Proof.Machine

/-- Two states alike in everything an evaluation looks at: `Alike` without the record of `res`. -/
def InputsAlike (s t : State) : Prop :=
  AgreeBelow 3 s.ctl t.ctl ∧ AgreeBelow 64 s.opnd t.opnd ∧ s.powered = t.powered ∧ s.stability = t.stability

/-- Outcomes alike: states that differ in no more than undriven levels, or refusals for one reason. A fault is like nothing. -/
inductive OutcomesAlike : (o p : Host.Outcome State Fault Refusal) → Prop where
  | next {s t : State} (h : Alike s t) : OutcomesAlike (.next s) (.next t)
  | refused (r : Refusal) : OutcomesAlike (.refused r) (.refused r)

section Placeholders

variable {s t : State} {c d : InputPort 3} {x y : InputPort 64}

theorem alike_iff : Alike s t ↔ InputsAlike s t ∧ s.res = t.res := by
  simp only [Alike, InputsAlike, and_assoc]

/-- One value or one refusal serves every state with the same inputs, supply and stability. -/
theorem evaluate_uniform {n : Nat} (hn : n ≤ 64) (f : BitVec n → Word) (s : State) :
    (∃ v, ∀ t, InputsAlike s t → evaluate n f t = .next (t.driveRes v)) ∨
    ∃ r, ∀ t, InputsAlike s t → evaluate n f t = .refused r := by
  cases hp : s.powered with
  | false => exact .inr ⟨.supplyNotStable, fun t ⟨_, _, power, _⟩ => by simp [evaluate, ← power, hp]⟩
  | true =>
    cases hs : s.stability with
    | pending u => exact .inr ⟨.notSettled, fun t ⟨_, _, power, stable⟩ => by simp [evaluate, ← power, hp, ← stable, hs]⟩
    | settled =>
      cases hr : s.opnd.readLow n with
      | none =>
        refine .inr ⟨.inputNotDriven, fun t ⟨_, opnd, power, stable⟩ => ?_⟩
        simp [evaluate, ← power, hp, ← stable, hs, ← readLow_eq_of_agree (opnd.mono hn), hr]
      | some z =>
        refine .inl ⟨f z, fun t ⟨_, opnd, power, stable⟩ => ?_⟩
        simp [evaluate, ← power, hp, ← stable, hs, ← readLow_eq_of_agree (opnd.mono hn), hr]

theorem exec_uniform (i : Instr) (s : State) :
    (∃ v, ∀ t, InputsAlike s t → exec i t = .next (t.driveRes v)) ∨
    ∃ r, ∀ t, InputsAlike s t → exec i t = .refused r := by
  cases i <;> exact evaluate_uniform (by decide) _ s

theorem fetch_eq_of_agree (h : AgreeBelow 3 s.ctl t.ctl) : fetch t = fetch s := by
  rw [fetch, fetch, readLow_eq_of_agree h]

theorem step_uniform (s : State) :
    (∃ v, ∀ t, InputsAlike s t → step t = .next (t.driveRes v)) ∨
    ∃ r, ∀ t, InputsAlike s t → step t = .refused r := by
  cases hf : fetch s with
  | error r => exact .inr ⟨r, fun t ⟨ctl, _⟩ => by rw [step, fetch_eq_of_agree ctl, hf]⟩
  | ok i =>
    have hstep (t : State) : InputsAlike s t → step t = exec i t :=
      fun ⟨ctl, _⟩ => step_eq_exec ((fetch_eq_of_agree ctl).trans hf)
    obtain ⟨v, hv⟩ | ⟨r, hr⟩ := exec_uniform i s
    · exact .inl ⟨v, fun t h => (hstep t h).trans (hv t h)⟩
    · exact .inr ⟨r, fun t h => (hstep t h).trans (hr t h)⟩

theorem inputsAlike_refl (s : State) : InputsAlike s s :=
  ⟨.refl 3 s.ctl, .refl 64 s.opnd, rfl, rfl⟩

theorem step_alike (h : InputsAlike s t) : OutcomesAlike (step s) (step t) := by
  obtain ⟨v, hv⟩ | ⟨r, hr⟩ := step_uniform s
  · rw [hv s (inputsAlike_refl s), hv t h]
    exact .next (alike_iff.2 ⟨h, rfl⟩)
  · rw [hr s (inputsAlike_refl s), hr t h]
    exact .refused r

/-- Whether a presentation is a change does not depend on undriven levels. -/
theorem present_alike (h : Alike s t) (hc : AgreeBelow 3 c d) (hx : AgreeBelow 64 x y) :
    Alike (s.present c x) (t.present d y) := by
  obtain ⟨ctl, opnd, power, stable, res⟩ := h
  have sameChange : AgreeBelow 3 s.ctl c ∧ AgreeBelow 64 s.opnd x ↔ AgreeBelow 3 t.ctl d ∧ AgreeBelow 64 t.opnd y :=
    ⟨fun ⟨h3, h64⟩ => ⟨ctl.symm.trans (h3.trans hc), opnd.symm.trans (h64.trans hx)⟩,
      fun ⟨h3, h64⟩ => ⟨ctl.trans (h3.trans hc.symm), opnd.trans (h64.trans hx.symm)⟩⟩
  obtain ⟨hs3, hs64, hs⟩ | ⟨hns, hs⟩ := s.present_cases c x <;>
    obtain ⟨ht3, ht64, ht⟩ | ⟨hnt, ht⟩ := t.present_cases d y <;> rw [hs, ht]
  · exact ⟨hc, hx, power, stable, res⟩
  · exact absurd (sameChange.1 ⟨hs3, hs64⟩) hnt
  · exact absurd (sameChange.2 ⟨ht3, ht64⟩) hns
  · exact ⟨hc, hx, power, rfl, rfl⟩

theorem perform_alike {a b : DriverAction} (hab : AlikeActions a b) (h : Alike s t) :
    OutcomesAlike (perform a s) (perform b t) := by
  have inputs : InputsAlike s t := (alike_iff.1 h).1
  have ⟨ctl, opnd, power, stable, res⟩ := h
  match a, b, hab with
  | .present _ _, .present _ _, ⟨hc, hx⟩ => exact .next (present_alike h hc hx)
  | .hold u, .hold _, rfl => exact .next ⟨ctl, opnd, power, congrArg (·.after u) stable, res⟩
  | .powerOn, .powerOn, _ => exact .next ⟨ctl, opnd, rfl, stable, res⟩
  | .powerOff, .powerOff, _ => exact .next ⟨ctl, opnd, rfl, stable, rfl⟩
  | .sample, .sample, _ => exact step_alike inputs
  | .feedBack c, .feedBack d, hc =>
    cases hres : s.res with
    | none =>
      rw [perform_feedBack_refused hres, perform_feedBack_refused (res ▸ hres)]
      exact .refused _
    | some v =>
      rw [perform_feedBack hres, perform_feedBack (res ▸ hres)]
      exact .next (present_alike h hc (.refl 64 (.drive v)))

theorem runDriver_alike {as bs : List DriverAction} (hab : List.Forall₂ AlikeActions as bs) (h : Alike s t) :
    OutcomesAlike (runDriver as s) (runDriver bs t) := by
  induction hab generalizing s t with
  | nil => exact .next h
  | @cons a b _ _ hab _ ih =>
    have hacts : OutcomesAlike (perform a s) (perform b t) := perform_alike hab h
    rw [runDriver, runDriver]
    generalize perform a s = o at hacts ⊢
    generalize perform b t = p at hacts ⊢
    cases hacts with
    | next h' => exact ih h'
    | refused r => exact .refused r

theorem OutcomesAlike.exists_next {o p : Host.Outcome State Fault Refusal} (h : OutcomesAlike o p)
    (ho : o = .next s) : ∃ t, p = .next t ∧ Alike s t := by
  cases h with
  | next h => cases ho; exact ⟨_, rfl, h⟩
  | refused r => cases ho

theorem OutcomesAlike.eq_refused {o p : Host.Outcome State Fault Refusal} {r : Refusal} (h : OutcomesAlike o p)
    (ho : o = .refused r) : p = .refused r := by
  cases h with
  | next h => cases ho
  | refused r => exact ho

end Placeholders

/-- Settles O22: every condition of a step, and the operand it takes, is read off driven wires. -/
theorem undrivenLevelsHaveNoEffect : Obligations.UndrivenLevelsHaveNoEffect := by
  intro s t ctl opnd power stable
  have hsteps : OutcomesAlike (step s) (step t) := step_alike ⟨ctl, opnd, power, stable⟩
  refine ⟨fun s' hs => ?_, fun r => hsteps.eq_refused⟩
  obtain ⟨t', ht, halike⟩ := hsteps.exists_next hs
  exact ⟨t', ht, (alike_iff.1 halike).2.symm⟩

/-- Settles O55: each pair of actions that differ in undriven levels alone has outcomes that differ in no more. -/
theorem undrivenLevelsHaveNoEffectOnDriverRuns : Obligations.UndrivenLevelsHaveNoEffectOnDriverRuns :=
  fun _ _ _ _ hab h =>
    ⟨fun _ => (runDriver_alike hab h).exists_next, fun _ => (runDriver_alike hab h).eq_refused⟩

end Sys2Proof.Machine

/-! ## Settling times (70_reset_and_hazards.md R163, R166) -/

namespace Sys2Proof.Machine

section Holding

variable {s m : State} {c : InputPort 3} {x : InputPort 64} {t u h : Nat}

theorem Stability.pending_after_of_le (ht : Config.tPD ≤ h + t) : (Stability.pending h).after t = .settled :=
  if_pos ht

theorem Stability.pending_after_of_lt (ht : h + t < Config.tPD) :
    (Stability.pending h).after t = .pending (h + t) :=
  if_neg (Nat.not_le_of_lt ht)

theorem Stability.after_after (p : Stability) (t u : Nat) : (p.after t).after u = p.after (t + u) := by
  cases p with
  | settled => rfl
  | pending h =>
    obtain early | late := Nat.lt_or_ge (h + t) Config.tPD
    · rw [pending_after_of_lt early, Stability.after, Stability.after, Nat.add_assoc]
    · rw [pending_after_of_le late, settled_after, pending_after_of_le (by omega)]

theorem runDriver_present_hold_sample (s : State) (c : InputPort 3) (x : InputPort 64) (t : Nat) :
    runDriver [.present c x, .hold t, .sample] s = step ((s.present c x).hold t) :=
  runDriver_singleton .sample ((s.present c x).hold t)

/-- A changed presentation, held for less than `T_PD`, is still pending at the sample. -/
theorem runDriver_refused_of_early_sample (hchange : ¬ (AgreeBelow 3 s.ctl c ∧ AgreeBelow 64 s.opnd x))
    (ht : t < Config.tPD) : ∃ r, runDriver [.present c x, .hold t, .sample] s = .refused r := by
  obtain ⟨hc, hx, -⟩ | ⟨-, hpresent⟩ := s.present_cases c x
  · exact absurd ⟨hc, hx⟩ hchange
  · rw [runDriver_present_hold_sample, hpresent]
    refine step_refused_of_not_settled fun ⟨_, settled⟩ => ?_
    rw [State.hold_stability, Stability.pending_after_of_lt (by omega)] at settled
    cases settled

end Holding

section TwoEvaluations

variable {s m : State} {i j : Instr} {v : Word} {t u : Nat}

theorem runDriver_append {as bs : List DriverAction} (has : runDriver as s = .next m) :
    runDriver (as ++ bs) s = runDriver bs m := by
  induction as generalizing s with
  | nil => cases has; rfl
  | cons a as ih =>
    obtain ⟨u, ha, hrest⟩ := runDriver_cons_next_iff.1 has
    rw [List.cons_append, runDriver_cons ha, ih hrest]

/-- Driven ports that agree on every wire are driven to one level. -/
theorem drive_agree_iff {n : Nat} {a b : BitVec n} : AgreeBelow n (.drive a) (.drive b) ↔ a = b :=
  ⟨fun h => h.value_eq fun _ hk => drive_driven_getLsbD a hk, fun h => h ▸ .refl n (.drive a)⟩

theorem runDriver_feedBack_hold_sample (hres : m.res = some v) (d : InputPort 3) (u : Nat) :
    runDriver [.feedBack d, .hold u, .sample] m = runDriver [.present d (.drive v), .hold u, .sample] m :=
  runDriver_cons_congr (perform_feedBack hres d)

theorem eval_encode (i : Instr) (x : Word) : eval (encode i) x = .ok (resultOf i x) :=
  eval_eq_ok_iff.2 ⟨i, decodeSelect_encode i, rfl⟩

theorem encode_injective (h : encode i = encode j) : i = j :=
  Except.ok.inj ((decodeSelect_encode i).symm.trans (h ▸ decodeSelect_encode j))

/-- One evaluation from any state: the final state, with the ports and the supply it leaves for the next. -/
theorem runDriver_one_evaluation (s : State) (i : Instr) (x : Word) (ht : Config.tPD ≤ t) :
    ∃ m, runDriver [.powerOn, .present (.drive (encode i)) (.drive x), .hold t, .sample] s = .next m ∧
      m.res = some (resultOf i x) ∧ m.ctl = .drive (encode i) ∧ m.powered = true := by
  have hsettled := settled_powerOn_present_hold s (.drive (encode i)) (.drive x) ht
  have hstep := step_of_driven_eval_ok hsettled (State.present_ctl ..) (State.present_opnd ..) (eval_encode i x)
  obtain ⟨powered, -⟩ := hsettled
  exact ⟨_, (runDriver_powerOn_present_hold_sample ..).trans hstep, rfl, State.present_ctl .., powered⟩

/-- A second evaluation, of the captured result, that is held for `T_PD` too. -/
theorem runDriver_two_evaluations (s : State) (i j : Instr) (x : Word) (ht : Config.tPD ≤ t) (hu : Config.tPD ≤ u) :
    ∃ a, runDriver [.powerOn, .present (.drive (encode i)) (.drive x), .hold t, .sample,
      .feedBack (.drive (encode j)), .hold u, .sample] s = .next a ∧ a.res = some (resultOf j (resultOf i x)) := by
  obtain ⟨m, hfirst, hres, -, powered⟩ := runDriver_one_evaluation s i x ht
  have hsettled : Settled ((m.present (.drive (encode j)) (.drive (resultOf i x))).hold u) :=
    ⟨(State.present_powered ..).trans powered, Stability.after_tPD hu _⟩
  have hsecond := step_of_driven_eval_ok hsettled (State.present_ctl ..) (State.present_opnd ..)
    (eval_encode j (resultOf i x))
  have hrest := (runDriver_feedBack_hold_sample hres ..).trans ((runDriver_present_hold_sample ..).trans hsecond)
  exact ⟨_, (runDriver_append hfirst).trans hrest, rfl⟩

/-- A second evaluation by another select word is a change, so it settles afresh. -/
theorem runDriver_second_evaluation_refused (s : State) (x : Word) (hij : i ≠ j) (ht : Config.tPD ≤ t)
    (hu : u < Config.tPD) :
    ∃ r, runDriver [.powerOn, .present (.drive (encode i)) (.drive x), .hold t, .sample,
      .feedBack (.drive (encode j)), .hold u, .sample] s = .refused r := by
  obtain ⟨m, hfirst, hres, hctl, -⟩ := runDriver_one_evaluation s i x ht
  have hchange : ¬ (AgreeBelow 3 m.ctl (.drive (encode j)) ∧ AgreeBelow 64 m.opnd (.drive (resultOf i x))) :=
    fun ⟨hctl', _⟩ => hij (encode_injective (drive_agree_iff.1 (hctl ▸ hctl')))
  obtain ⟨r, hr⟩ := runDriver_refused_of_early_sample hchange hu
  exact ⟨r, (runDriver_append hfirst).trans ((runDriver_feedBack_hold_sample hres ..).trans hr)⟩

end TwoEvaluations

/-- Settles O29: held times accumulate until they reach `T_PD`, and a settled input stays settled. -/
theorem holdingTimesAddUp : Obligations.HoldingTimesAddUp :=
  fun s t u => congrArg (fun p => { s with stability := p }) (Stability.after_after s.stability t u)

/-- Settles O28: the change starts the settling time at 0, and the hold does not complete it. -/
theorem earlySampleIsRefused : Obligations.EarlySampleIsRefused :=
  fun _ _ _ _ => runDriver_refused_of_early_sample

end Sys2Proof.Machine

/-! ## Laws of the functions (40_clz.md section 3, 41_ctz.md sections 3 and 4, 42_rbit.md sections 3 and 4) -/

namespace Sys2Proof.Machine

section Reversals

variable {n : Nat} {x y : BitVec n}

theorem getLsbD_rbit (x : BitVec n) {i : Nat} (hi : i < n) : (rbit x).getLsbD i = x.getLsbD (n - 1 - i) :=
  reversed_rbit x i hi

@[simp] theorem rbit_rbit (x : BitVec n) : rbit (rbit x) = x :=
  reversed_unique (reversed_rbit (rbit x)) (reversed_symm (reversed_rbit x))

theorem rbit_not (x : BitVec n) : rbit (~~~x) = ~~~rbit x := by
  refine reversed_unique (reversed_rbit _) fun i hi => ?_
  have hmirror : n - 1 - i < n := by omega
  rw [BitVec.getLsbD_not, BitVec.getLsbD_not, getLsbD_rbit x hi, decide_eq_true hi, decide_eq_true hmirror]

theorem rbit_twoPow {k : Nat} (hk : k < n) : rbit (BitVec.twoPow n k) = BitVec.twoPow n (n - 1 - k) := by
  refine reversed_unique (reversed_rbit _) fun i hi => ?_
  have hplace : n - 1 - k = i ↔ k = n - 1 - i := by omega
  have hmirror : n - 1 - k < n := by omega
  rw [BitVec.getLsbD_twoPow, BitVec.getLsbD_twoPow, decide_eq_true hk, decide_eq_true hmirror, decide_eq_decide.2 hplace]

theorem popCount_rbit (x : BitVec n) : popCount (rbit x) = popCount x := by
  have hreverse : (List.range n).reverse = (List.range n).map fun i => n - 1 - i := by
    rw [List.range_eq_range', List.reverse_range', List.range_eq_range', Nat.zero_add]
  calc popCount (rbit x)
      = (List.range n).countP fun i => x.getLsbD (n - 1 - i) :=
        List.countP_congr fun i hi => by rw [getLsbD_rbit x (List.mem_range.1 hi)]
    _ = ((List.range n).map fun i => n - 1 - i).countP fun i => x.getLsbD i := List.countP_map.symm
    _ = (List.range n).reverse.countP fun i => x.getLsbD i := by rw [hreverse]
    _ = popCount x := List.countP_reverse

/-- The trailing zeros of a value are the leading zeros of its reversal. -/
theorem ctz_eq_clz_rbit (x : BitVec n) : ctz x = clz (rbit x) := by
  refine trailingZeros_unique (trailingZeros_ctz x) ?_
  obtain ⟨inRange, clearAbove, setBelow⟩ := leadingZeros_clz (rbit x)
  refine ⟨inRange, fun i hi => ?_, fun hlt => ?_⟩
  · have hclear := clearAbove (n - 1 - i) (by omega) (by omega)
    rwa [getLsbD_rbit x (by omega), show n - 1 - (n - 1 - i) = i by omega] at hclear
  · have hset := setBelow hlt
    rwa [getLsbD_rbit x (by omega), show n - 1 - (n - 1 - clz (rbit x)) = clz (rbit x) by omega] at hset

theorem clz_eq_ctz_rbit (x : BitVec n) : clz x = ctz (rbit x) := by
  rw [ctz_eq_clz_rbit, rbit_rbit]

end Reversals

section Counts

variable {n : Nat} {x : BitVec n}

theorem clz_lt (h : x ≠ 0#n) : clz x < n := by
  have inRange : msb x < n := msb_lt h
  rw [clz_of_ne_zero h]
  omega

theorem ctz_lt (h : x ≠ 0#n) : ctz x < n := by
  rw [ctz_of_ne_zero h]
  exact lsb_lt h

theorem clz_eq_width_iff : clz x = n ↔ x = 0#n :=
  ⟨fun h => by_contra fun hx => (clz_lt hx).ne h, fun h => h ▸ clz_zero n⟩

theorem ctz_eq_width_iff : ctz x = n ↔ x = 0#n :=
  ⟨fun h => by_contra fun hx => (ctz_lt hx).ne h, fun h => h ▸ ctz_zero n⟩

theorem log2_toNat_eq_msb (h : x ≠ 0#n) : Nat.log2 x.toNat = msb x := by
  have hpos : x.toNat ≠ 0 := BitVec.toNat_ne_iff_ne.2 h
  apply Nat.le_antisymm
  · exact le_msb ((BitVec.testBit_toNat x).symm.trans (Nat.testBit_log2 hpos))
  · exact (Nat.le_log2 hpos).2 (Nat.ge_two_pow_of_testBit ((BitVec.testBit_toNat x).trans (getLsbD_msb h)))

/-- R80's derived formula, with the bound that makes the subtraction exact. -/
theorem log2_le_and_clz_eq (h : x ≠ 0#n) :
    Nat.log2 x.toNat ≤ n - 1 ∧ clz x = n - 1 - Nat.log2 x.toNat := by
  rw [log2_toNat_eq_msb h]
  exact ⟨Nat.le_sub_one_of_lt (msb_lt h), clz_of_ne_zero h⟩

theorem lsb_le_msb (h : x ≠ 0#n) : lsb x ≤ msb x := lsb_le (getLsbD_msb h)

theorem msb_eq_lsb_iff (h : x ≠ 0#n) : msb x = lsb x ↔ ∃ k, k < n ∧ x = BitVec.twoPow n k := by
  constructor
  · intro heq
    refine ⟨msb x, msb_lt h, BitVec.eq_of_getLsbD_eq fun i _ => ?_⟩
    rw [BitVec.getLsbD_twoPow, decide_eq_true (msb_lt h), Bool.true_and]
    by_cases hi : msb x = i
    · rw [decide_eq_true hi, ← hi, getLsbD_msb h]
    · rw [decide_eq_false hi]
      by_contra hset
      have hset : x.getLsbD i = true := Bool.eq_true_of_not_eq_false hset
      have habove : i ≤ msb x := le_msb hset
      have hbelow : lsb x ≤ i := lsb_le hset
      omega
  · rintro ⟨k, hk, rfl⟩
    have only {i : Nat} (hi : (BitVec.twoPow n k).getLsbD i = true) : k = i := by
      simpa [BitVec.getLsbD_twoPow, hk] using hi
    exact (only (getLsbD_msb h)).symm.trans (only (getLsbD_lsb h))

theorem clz_twoPow {k : Nat} (hk : k < n) : clz (BitVec.twoPow n k) = n - 1 - k := by
  refine leadingZeros_unique (leadingZeros_clz _) ⟨by omega, fun i hi _ => ?_, fun _ => ?_⟩
  · rw [BitVec.getLsbD_twoPow, decide_eq_false (show k ≠ i by omega), Bool.and_false]
  · rw [BitVec.getLsbD_twoPow, decide_eq_true hk, decide_eq_true (show k = n - 1 - (n - 1 - k) by omega)]
    rfl

theorem ctz_twoPow {k : Nat} (hk : k < n) : ctz (BitVec.twoPow n k) = k := by
  rw [ctz_eq_clz_rbit, rbit_twoPow hk, clz_twoPow (by omega)]
  omega

theorem getLsbD_not_twoPow {k i : Nat} (hk : k < n) (hi : i < n) :
    (~~~BitVec.twoPow n k).getLsbD i = !decide (k = i) := by
  rw [BitVec.getLsbD_not, BitVec.getLsbD_twoPow, decide_eq_true hk, decide_eq_true hi, Bool.true_and, Bool.true_and]

theorem clz_not_twoPow {k : Nat} (hn : 1 < n) (hk : k < n) :
    clz (~~~BitVec.twoPow n k) = if k = n - 1 then 1 else 0 := by
  split
  next htop =>
    refine leadingZeros_unique (leadingZeros_clz _) ⟨by omega, fun i hi hin => ?_, fun _ => ?_⟩
    · rw [getLsbD_not_twoPow hk hin, decide_eq_true (by omega), Bool.not_true]
    · rw [getLsbD_not_twoPow hk (by omega), decide_eq_false (by omega), Bool.not_false]
  next htop =>
    refine clz_eq_zero_of_top_bit ?_
    rw [getLsbD_not_twoPow hk (by omega), decide_eq_false htop, Bool.not_false]

theorem ctz_not_twoPow {k : Nat} (hn : 1 < n) (hk : k < n) :
    ctz (~~~BitVec.twoPow n k) = if k = 0 then 1 else 0 := by
  have hplace : n - 1 - k = n - 1 ↔ k = 0 := by omega
  rw [ctz_eq_clz_rbit, rbit_not, rbit_twoPow hk, clz_not_twoPow hn (by omega)]
  exact if_congr hplace rfl rfl

end Counts

section ZeroExtension

variable {v : BitVec 32}

/-- Zero extension puts 32 clear bits above the leading zeros. -/
theorem clz_setWidth (v : BitVec 32) : clz (v.setWidth 64) = 32 + clz v := by
  obtain ⟨inRange, clearAbove, setBelow⟩ := leadingZeros_clz v
  refine leadingZeros_unique (leadingZeros_clz _) ⟨by omega, fun i hi _ => ?_, fun hlt => ?_⟩
  · obtain low | high := Nat.lt_or_ge i 32
    · rw [BitVec.getLsbD_setWidth, clearAbove i (by omega) low, Bool.and_false]
    · rw [BitVec.getLsbD_setWidth, BitVec.getLsbD_of_ge v i high, Bool.and_false]
  · have hset := setBelow (by omega)
    rw [BitVec.getLsbD_setWidth, show 64 - 1 - (32 + clz v) = 32 - 1 - clz v by omega, hset, Bool.and_true]
    exact decide_eq_true (by omega)

/-- Zero extension leaves the trailing zeros of a nonzero value as they are. -/
theorem ctz_setWidth (h : v ≠ 0#32) : ctz (v.setWidth 64) = ctz v := by
  obtain ⟨-, clearBelow, setAt⟩ := trailingZeros_ctz v
  have hlt : ctz v < 32 := ctz_lt h
  refine trailingZeros_unique (trailingZeros_ctz _) ⟨by omega, fun i hi => ?_, fun _ => ?_⟩
  · rw [BitVec.getLsbD_setWidth, clearBelow i hi, Bool.and_false]
  · rw [BitVec.getLsbD_setWidth, setAt hlt, Bool.and_true]
    exact decide_eq_true (by omega)

end ZeroExtension

/-- Settles O40: a nonzero value has its end set bits below N. -/
theorem countReachesTheWidthOnlyAtZero : Obligations.CountReachesTheWidthOnlyAtZero :=
  fun _ x => ⟨ctz_le x, ctz_eq_width_iff, clz_eq_width_iff⟩

/-- Settles O41: `msb` is floor(log2), so CLZ's own formula is the one stated. -/
theorem clzIsWidthLessLogTwo : Obligations.ClzIsWidthLessLogTwo :=
  ⟨fun _ => log2_le_and_clz_eq, fun _ => log2_le_and_clz_eq, fun _ => clz_eq_width_iff.1, fun _ => clz_eq_width_iff.1⟩

/-- Settles O44: bit 32 + i of the wide reversal is bit 31 - i of the value. -/
theorem rbitOfTheTwoWidths : Obligations.RbitOfTheTwoWidths := by
  refine fun v => BitVec.eq_of_getLsbD_eq fun i hi => ?_
  have hsource : 64 - 1 - (32 + i) = 32 - 1 - i := by omega
  have hlow : 32 - 1 - i < 64 := by omega
  rw [BitVec.getLsbD_extractLsb', decide_eq_true hi, Bool.true_and, getLsbD_rbit v hi,
    getLsbD_rbit (v.setWidth 64) (by omega), hsource, BitVec.getLsbD_setWidth, decide_eq_true hlow, Bool.true_and]

/-- Settles O45: reversing twice restores every bit; on the port the second operand's low half is the first reversal. -/
theorem rbitIsAnInvolution : Obligations.RbitIsAnInvolution := by
  refine ⟨fun _ => rbit_rbit, fun n => Function.Involutive.bijective rbit_rbit, fun s t u r hfirst hres hsecond => ?_⟩
  obtain ⟨-, rfl⟩ := exec_next_iff.1 hfirst
  obtain ⟨-, rfl⟩ := exec_next_iff.1 hsecond
  have hr : packValue (rbit (s.opnd.value.extractLsb' 0 32)) = r := Option.some.inj hres
  have hlow : r.extractLsb' 0 32 = rbit (s.opnd.value.extractLsb' 0 32) := hr ▸ (packValue_halves _).1
  rw [State.driveRes_res, InputPort.drive_value, resultOf, hlow, rbit_rbit]
  rfl

/-- Settles O46: output bit i is input bit N-1-i. -/
theorem eachReversedBitDependsOnOneInputBit : Obligations.EachReversedBitDependsOnOneInputBit :=
  fun n i hi x y => by rw [getLsbD_rbit x hi, getLsbD_rbit y hi]

/-- Settles O47: reversal exchanges the two counts; the source's cross-check fails at 0, where the sum is 2N. -/
theorem countsThroughReversal : Obligations.CountsThroughReversal := by
  have hsum {n : Nat} (x : BitVec n) : clz x + ctz (rbit x) = 2 * clz x := by
    rw [← clz_eq_ctz_rbit, Nat.two_mul]
  have hzero (n : Nat) : clz 0#n + ctz (rbit 0#n) = 2 * n := by
    rw [hsum, clz_zero]
  refine ⟨fun _ x => ⟨clz_eq_ctz_rbit x, ctz_eq_clz_rbit x⟩, fun n => ?_, fun _ => hsum, hzero, fun h => ?_, fun h => ?_⟩
  · rw [rbit_zero, clz_zero, ctz_zero]
    exact ⟨rfl, rfl, rfl, rfl⟩
  · exact absurd ((hzero 64).symm.trans (h 0#64)) (by decide)
  · exact absurd ((hzero 32).symm.trans (h 0#32)) (by decide)

/-- Settles O48: the sum is N - 1 less the distance between the end set bits. -/
theorem sumOfTheTwoCounts : Obligations.SumOfTheTwoCounts := by
  refine ⟨fun n x h => ?_, fun n => by rw [clz_zero, ctz_zero, Nat.two_mul]⟩
  have inRange : msb x < n := msb_lt h
  have ordered : lsb x ≤ msb x := lsb_le_msb h
  rw [clz_of_ne_zero h, ctz_of_ne_zero h, ← msb_eq_lsb_iff h]
  omega

/-- Settles O49: reversal permutes the bits, and moves a single set or clear bit from k to N-1-k. -/
theorem singleBitClasses : Obligations.SingleBitClasses := by
  refine ⟨fun _ => popCount_rbit, fun n k hk => ⟨rbit_twoPow hk, clz_twoPow hk, ctz_twoPow hk⟩,
    fun n k hn hk => ⟨clz_not_twoPow hn hk, ctz_not_twoPow hn hk, ?_⟩⟩
  rw [rbit_not, rbit_twoPow hk]

/-- On the port too, CLZ of the reversal is CTZ, at 64 bits. -/
theorem resultOf_clz64_rbit64 (x : Word) : resultOf .clz64 (resultOf .rbit64 x) = resultOf .ctz64 x := by
  simp only [resultOf, packValue_word, ctz_eq_clz_rbit]

/-- On the port too, CLZ of the reversal is CTZ, at 32 bits: CLZ32 reads the half that RBIT32 drives. -/
theorem resultOf_clz32_rbit32 (x : Word) : resultOf .clz32 (resultOf .rbit32 x) = resultOf .ctz32 x := by
  obtain ⟨hlow, -⟩ := packValue_halves (rbit (x.extractLsb' 0 32))
  simp only [resultOf, hlow, ctz_eq_clz_rbit]

/-- Settles O31: the second evaluation counts the leading zeros of the reversal; presenting its select word is a change, which settles afresh. -/
theorem reversalThenClzIsCtzOverTwoEvaluations : Obligations.ReversalThenClzIsCtzOverTwoEvaluations := by
  refine fun s x t u ht => ⟨fun hu => ⟨?wide, ?narrow⟩, fun hu => ⟨?wideEarly, ?narrowEarly⟩⟩
  case wide =>
    obtain ⟨a, ha, hares⟩ := runDriver_two_evaluations s .rbit64 .clz64 x ht hu
    obtain ⟨b, hb, hbres, -⟩ := runDriver_one_evaluation s .ctz64 x ht
    exact ⟨a, b, _, ha, hb, hares.trans (congrArg some (resultOf_clz64_rbit64 x)), hbres⟩
  case narrow =>
    obtain ⟨a, ha, hares⟩ := runDriver_two_evaluations s .rbit32 .clz32 x ht hu
    obtain ⟨b, hb, hbres, -⟩ := runDriver_one_evaluation s .ctz32 x ht
    exact ⟨a, b, _, ha, hb, hares.trans (congrArg some (resultOf_clz32_rbit32 x)), hbres⟩
  case wideEarly => exact runDriver_second_evaluation_refused (i := .rbit64) (j := .clz64) s x nofun ht hu
  case narrowEarly => exact runDriver_second_evaluation_refused (i := .rbit32) (j := .clz32) s x nofun ht hu

end Sys2Proof.Machine

/-! ## The reference structures (40_clz.md R87, 41_ctz.md R100, R101, 50_laws.md R130) -/

namespace Sys2Proof.Machine

section Trees

variable {n s k : Nat} {v x : BitVec n}

theorem le_clz_iff (hs : s ≤ n) : s ≤ clz v ↔ ∀ i, n - s ≤ i → i < n → v.getLsbD i = false := by
  obtain ⟨-, clearAbove, setBelow⟩ := leadingZeros_clz v
  refine ⟨fun h i hi => clearAbove i (by omega), fun h => ?_⟩
  by_contra hlt
  exact Bool.false_ne_true ((h (n - 1 - clz v) (by omega) (by omega)).symm.trans (setBelow (by omega)))

/-- A slice is zero exactly when each bit in it is clear. -/
theorem extractLsb'_eq_zero_iff {a : Nat} :
    v.extractLsb' a s = 0#s ↔ ∀ i, i < s → v.getLsbD (a + i) = false := by
  constructor
  · intro h i hi
    simpa [hi] using congrArg (fun b => b.getLsbD i) h
  · intro h
    refine BitVec.eq_of_getLsbD_eq fun i hi => ?_
    rw [BitVec.getLsbD_extractLsb', h i hi, Bool.and_false, BitVec.getLsbD_zero]

/-- The test of a stage of the CLZ tree. -/
theorem top_bits_eq_zero_iff (hs : s ≤ n) : v.extractLsb' (n - s) s = 0#s ↔ s ≤ clz v := by
  rw [extractLsb'_eq_zero_iff, le_clz_iff hs]
  constructor
  · intro h i hlow hi
    simpa [show n - s + (i - (n - s)) = i by omega] using h (i - (n - s)) (by omega)
  · exact fun h i hi => h (n - s + i) (by omega) (by omega)

/-- The shift of a stage of the CLZ tree takes its `s` leading zeros away. -/
theorem clz_shiftLeft (hv : v ≠ 0#n) (hs : s ≤ clz v) : clz (v <<< s) = clz v - s := by
  obtain ⟨-, clearAbove, setBelow⟩ := leadingZeros_clz v
  have hlt : clz v < n := clz_lt hv
  refine leadingZeros_unique (leadingZeros_clz _) ⟨by omega, fun i hi hin => ?_, fun _ => ?_⟩
  · rw [BitVec.getLsbD_shiftLeft, clearAbove (i - s) (by omega) (by omega), Bool.and_false]
  · have hplace : n - 1 - (clz v - s) - s = n - 1 - clz v := by omega
    rw [BitVec.getLsbD_shiftLeft, hplace, setBelow hlt, decide_eq_true (by omega), decide_eq_false (by omega)]
    rfl

theorem shiftLeft_ne_zero (hv : v ≠ 0#n) (hs : s ≤ clz v) : v <<< s ≠ 0#n := by
  intro hzero
  have hcount := clz_shiftLeft hv hs
  have hlt : clz v < n := clz_lt hv
  rw [hzero, clz_zero] at hcount
  omega

theorem clzStages_taken {rest : List Nat} (hs : s ≤ n) (h : s ≤ clz v) (count : Nat) :
    clzStages v count (s :: rest) = clzStages (v <<< s) (count + s) rest :=
  if_pos ((top_bits_eq_zero_iff hs).2 h)

theorem clzStages_passed {rest : List Nat} (hs : s ≤ n) (h : clz v < s) (count : Nat) :
    clzStages v count (s :: rest) = clzStages v count rest :=
  if_neg fun htop => Nat.not_le_of_lt h ((top_bits_eq_zero_iff hs).1 htop)

/-- `k` stages count any number of leading zeros below 2^k: each stage takes one binary digit off it. -/
theorem clzStages_eq (hn : 2 ^ k ≤ 2 * n) (hv : v ≠ 0#n) (hk : clz v < 2 ^ k) (count : Nat) :
    clzStages v count (stages k) = count + clz v := by
  induction k generalizing v count with
  | zero => rw [stages, clzStages]; omega
  | succ k ih =>
    rw [Nat.pow_succ] at hn hk
    rw [stages]
    obtain passed | taken := Nat.lt_or_ge (clz v) (2 ^ k)
    · rw [clzStages_passed (by omega) passed, ih (by omega) hv passed]
    · have hcount := clz_shiftLeft hv taken
      rw [clzStages_taken (by omega) taken, ih (by omega) (shiftLeft_ne_zero hv taken) (by omega), hcount]
      omega

/-- A tree of log2(N) stages computes CLZ. -/
theorem clzTree_eq_clz (hn : n = 2 ^ k) (x : BitVec n) : clzTree k x = clz x := by
  rw [clzTree]
  split
  next hzero => rw [hzero, clz_zero]
  next hx =>
    have hlt : clz x < n := clz_lt hx
    rw [clzStages_eq (by omega) hx (by omega), Nat.zero_add]

/-- The low bits that the CTZ tree tests are the top bits of the reversal. -/
theorem low_bits_eq_zero_iff (hs : s ≤ n) : v.extractLsb' 0 s = 0#s ↔ (rbit v).extractLsb' (n - s) s = 0#s := by
  have hmirror {i : Nat} (hi : i < s) : (rbit v).getLsbD (n - s + i) = v.getLsbD (s - 1 - i) := by
    rw [getLsbD_rbit v (by omega), show n - 1 - (n - s + i) = s - 1 - i by omega]
  rw [extractLsb'_eq_zero_iff, extractLsb'_eq_zero_iff]
  constructor
  · intro h i hi
    simpa [hmirror hi] using h (s - 1 - i) (by omega)
  · intro h i hi
    have hclear := h (s - 1 - i) (by omega)
    rwa [hmirror (by omega), show s - 1 - (s - 1 - i) = 0 + i by omega] at hclear

theorem rbit_ushiftRight (v : BitVec n) (s : Nat) : rbit (v >>> s) = rbit v <<< s := by
  refine reversed_unique (reversed_rbit _) fun i hi => ?_
  rw [BitVec.getLsbD_shiftLeft, BitVec.getLsbD_ushiftRight, decide_eq_true hi]
  by_cases his : i < s
  · rw [BitVec.getLsbD_of_ge v _ (by omega), decide_eq_true his]
    rfl
  · rw [decide_eq_false his, getLsbD_rbit v (by omega), show n - 1 - (i - s) = s + (n - 1 - i) by omega]
    rfl

/-- The stages of the CTZ tree mirror those of the CLZ tree. -/
theorem ctzStages_eq_clzStages_rbit (hn : 2 ^ k ≤ 2 * n) (v : BitVec n) (count : Nat) :
    ctzStages v count (stages k) = clzStages (rbit v) count (stages k) := by
  induction k generalizing v count with
  | zero => rfl
  | succ k ih =>
    rw [Nat.pow_succ] at hn
    rw [stages, ctzStages, clzStages, ih (by omega), ih (by omega), rbit_ushiftRight]
    exact if_congr (low_bits_eq_zero_iff (by omega)) rfl rfl

theorem rbit_eq_zero_iff : rbit x = 0#n ↔ x = 0#n :=
  ⟨fun h => rbit_injective (h.trans (rbit_zero n).symm), fun h => h ▸ rbit_zero n⟩

theorem ctzTree_eq_ctzByReversal (hn : n = 2 ^ k) (x : BitVec n) : ctzTree k x = ctzByReversal k x := by
  rw [ctzTree, ctzByReversal, clzTree, ctzStages_eq_clzStages_rbit (by omega)]
  exact if_congr rbit_eq_zero_iff.symm rfl rfl

theorem ctzByReversal_eq_ctz (hn : n = 2 ^ k) (x : BitVec n) : ctzByReversal k x = ctz x := by
  rw [ctzByReversal, clzTree_eq_clz hn, ctz_eq_clz_rbit]

/-- A mirror tree of log2(N) stages computes CTZ. -/
theorem ctzTree_eq_ctz (hn : n = 2 ^ k) (x : BitVec n) : ctzTree k x = ctz x :=
  (ctzTree_eq_ctzByReversal hn x).trans (ctzByReversal_eq_ctz hn x)

end Trees

/-- Settles O50: at both widths N is 2 to the number of stages; the values at 0 by evaluation of the stages. -/
theorem clzTreeComputesClz : Obligations.ClzTreeComputesClz :=
  ⟨clzTree_eq_clz (by decide), clzTree_eq_clz (by decide), by decide, by decide, rfl, rfl⟩

/-- Settles O51: the mirror tree is the CLZ tree fed with the reversal; the values at 0 by evaluation of the stages. -/
theorem ctzTreeComputesCtz : Obligations.CtzTreeComputesCtz :=
  ⟨ctzTree_eq_ctz (by decide), ctzTree_eq_ctz (by decide), by decide, by decide⟩

/-- Settles O52: reversal exchanges the counts, and the CLZ tree computes CLZ. -/
theorem reversalFeedingClzTreeIsCtz : Obligations.ReversalFeedingClzTreeIsCtz :=
  ⟨fun _ => ctz_eq_clz_rbit, ctzByReversal_eq_ctz (by decide), ctzByReversal_eq_ctz (by decide)⟩

/-- Settles O42: the 32 bits above the value are leading zeros, at 0 too, and the tree computes CLZ. -/
theorem clzOfTheTwoWidths : Obligations.ClzOfTheTwoWidths := by
  refine ⟨clz_setWidth, ?_, by rw [clz_zero], fun x => ?_⟩
  · rw [clz_setWidth, clz_zero]
  · rw [clzTree_eq_clz (by decide), clz_setWidth, Nat.add_sub_cancel_left]

/-- Settles O43: the lowest set bit is where it was; at 0 the tree's 64 is clamped. -/
theorem ctzOfTheTwoWidths : Obligations.CtzOfTheTwoWidths := by
  refine ⟨fun _ => ctz_setWidth, ctz_zero 64, ctz_zero 32, fun x => ?_⟩
  rw [ctzTree_eq_ctz (by decide)]
  by_cases h : x.extractLsb' 0 32 = 0#32
  · rw [h, BitVec.setWidth_zero, ctz_zero, ctz_zero]
    rfl
  · rw [ctz_setWidth h, Nat.min_eq_right (ctz_le _)]

/-- Settles O54: each structure is the same function as its operation's, so the evaluations are the same. -/
theorem resultDoesNotDependOnStructure : Obligations.ResultDoesNotDependOnStructure := by
  have loop {n : Nat} (x : BitVec n) : rbitLoop x = rbit x := (reversingLoopComputesRbit n x).1
  have clz32 (x : BitVec 32) : clzTree 5 x = clz x := clzTree_eq_clz (by decide) x
  have clz64 (x : BitVec 64) : clzTree 6 x = clz x := clzTree_eq_clz (by decide) x
  have ctz32 (x : BitVec 32) : ctzTree 5 x = ctz x := ctzTree_eq_ctz (by decide) x
  have ctz64 (x : BitVec 64) : ctzTree 6 x = ctz x := ctzTree_eq_ctz (by decide) x
  have rev32 (x : BitVec 32) : ctzByReversal 5 x = ctz x := ctzByReversal_eq_ctz (by decide) x
  have rev64 (x : BitVec 64) : ctzByReversal 6 x = ctz x := ctzByReversal_eq_ctz (by decide) x
  intro s
  simp only [loop, clz32, clz64, ctz32, ctz64, rev32, rev64]
  exact ⟨rfl, rfl, rfl, rfl, rfl, rfl, rfl, rfl⟩

end Sys2Proof.Machine
